-- ==== Sys2Proof/Word.lean ====
section
/-! DEFINITION. The plain data the spec counts in: bytes, 16-bit cells, 32-bit register words (00_scope.md R9, R11, R16),
and the small closed enumerations: colours, CFA patterns, kinds of bus access. -/

namespace Sys2Proof

/-- One byte of memory. -/
abbrev Byte := BitVec 8

/-- The value of one 16-bit cell, `CELL_BITS` (R9): a raw sample or one output channel. -/
abbrev Cell := BitVec 16

/-- A 32-bit register value or byte address, `REG_WIDTH` and `ADDR_WIDTH` (R9). -/
abbrev Word := BitVec 32

/-- The three colours of a Bayer site (R121). -/
inductive Colour where
  | r
  | g
  | b
deriving DecidableEq, Repr

/-- The four colour-filter patterns, in the order the CFA field numbers them (R73). -/
inductive CfaPattern where
  | rggb
  | bggr
  | grbg
  | gbrg
deriving DecidableEq, Repr

/-- The two kinds of access `BUS_ADMITS` tells apart (R9). -/
inductive AccessKind where
  | read
  | write
deriving DecidableEq, Repr

end Sys2Proof
end

