-- ==== Sys2Proof/Config.lean ====
section
/-! DEFINITION. What is fixed for a machine: the constants of RBP-1 and the platform's open parameters (00_scope.md R9,
R10), and the free values that stand for what the spec leaves unspecified (93_implementation_defined.md sections 2, 3). -/

namespace Sys2Proof

/-- The number of byte addresses, `2 ^ ADDR_WIDTH` (R9, R50). -/
abbrev addressSpace : Nat := 4294967296

/-- `REG_WINDOW` in bytes (R9). -/
abbrev windowBytes : Nat := 64

/-- `MAX_SAMPLE` (R9). -/
abbrev maxSample : Nat := 4095

/-- One range of the platform's address map. The ranges of a platform together ARE its predicate `BUS_ADMITS` (R9, R60),
as plain data: an address answers as the first range that holds it says, and an address in no range answers no access.
`device` says that the range has read or write side effects (R59). -/
structure BusRange where
  base : Nat
  size : Nat
  admitsRead : Bool
  admitsWrite : Bool
  device : Bool
deriving DecidableEq, Repr

/-- How the platform wires one block (R9): `base` is its `BASE_ADDR`, `irqRoute` its `IRQ_ROUTE`, the number of the
platform's interrupt line that the block's `irq` output drives. -/
structure Port where
  base : Word
  irqRoute : Nat
deriving DecidableEq, Repr

/-- The arguments of the configuration (R10): the ports of the platform's blocks, whose number is `N_INSTANCES`, and the
address map. -/
structure Platform where
  firstPort : Port
  otherPorts : List Port
  busMap : List BusRange
deriving DecidableEq, Repr

/-- `N_INSTANCES` (R9). -/
def Platform.instanceCount (p : Platform) : Nat := p.otherPorts.length + 1

/-- The platform of `State.reset`: one block, its window at 0x40000000, every other address ordinary memory. DESIGN CHOICE
(log entry 2), unsafe for a claim about `State.reset` itself; no statement about other states uses it. -/
def Platform.simple : Platform where
  firstPort := { base := 0x40000000#32, irqRoute := 0 }
  otherPorts := []
  busMap := [{ base := 0, size := addressSpace, admitsRead := true, admitsWrite := true, device := false }]

/-- A free byte per draw: a byte of the destination region after SAMPLE_RANGE, BUS_ERROR or a reset (R148, R171). -/
opaque Config.freeByte : Nat → Byte

/-- A free word per draw: a latched parameter after a reset (R31, R39). -/
opaque Config.freeWord : Nat → Word

/-- A free choice per draw: true reports SAMPLE_RANGE, false BUS_ERROR, where both apply (R147). -/
opaque Config.freeChoice : Nat → Bool

end Sys2Proof
end

