-- ==== Sys2Proof/Machine/Bus.lean ====
section
/-! DEFINITION. What the outside does to the machine, as data (00_scope.md R8, 40_control.md R85, 70_reset_and_hazards.md
R170): the host's bus accesses, the turns of the engines and the reset inputs, in the order in which they happen. -/

namespace Sys2Proof.Machine

/-- The registers of the window (R22). An offset that names none of them is unmapped (R34). -/
inductive Reg where
  | cmd
  | ctrl
  | status
  | irqEn
  | srcAddr
  | dstAddr
  | len
  | width
  | height
  | outCount
deriving DecidableEq, Repr

/-- The width of a host access: one byte, a 16-bit cell, a 32-bit word (R79, R85). DESIGN CHOICE (log entry 19): the spec
bounds no host's access width; an access of any other width, 64 bits among them, is no event of the model. -/
inductive AccessWidth where
  | byte
  | cell
  | word
deriving DecidableEq, Repr

/-- The value of a host access, with its width. -/
inductive Datum where
  | byte (v : Byte)
  | cell (v : Cell)
  | word (v : Word)
deriving DecidableEq, Repr

/-- One host access at a byte address (R79: `rd`, `wr`, `mem8`, `mem16`; R81: its bus transaction). -/
inductive HostAccess where
  | read (addr : Word) (w : AccessWidth)
  | write (addr : Word) (d : Datum)
deriving DecidableEq, Repr

/-- One thing that happens to the machine. Blocks are numbered from 0, the block in focus, in the order State lists them.

`bus` is one host access. `poll` repeats a 32-bit read until the bits of `mask` read as `value` (R79). `takeIrq` waits
until an interrupt line of the platform is asserted (R63, R150). `engine` gives one block's engine its turn (R8, R30).
`reset` asserts one block's reset input (R170). -/
inductive Event where
  | bus (a : HostAccess)
  | poll (addr mask value : Word)
  | takeIrq (line : Nat)
  | engine (block : Nat)
  | reset (block : Nat)
deriving DecidableEq, Repr

end Sys2Proof.Machine
end

