-- ==== Sys2Proof/Machine/State.lean ====
section
/-! DEFINITION. The machine's state as plain data (10_state.md R40), the reasons a step can stop, and the state after reset
(10_state.md R39). -/

namespace Sys2Proof.Machine

/-- Why the machine stops although the host's step was well formed. -/
inductive Fault where
  /-- Raised by a host access to a byte that the platform's `BUS_ADMITS` does not admit for it (R9, R60): what the host's
  processor then does is the host's own ISA (R152). Safe: the run stops. -/
  | hostBusError
  /-- Raised by a host access that passes the top of the address space: those addresses do not exist (R50). Safe: the run
  stops. -/
  | hostPastTop
deriving DecidableEq, Repr

/-- Steps to which the spec gives no meaning (93_implementation_defined.md section 4), and instructions not yet modelled. -/
inductive Refusal where
  /-- Raised by an arm of `exec` whose instruction has no meaning yet; no arm does. Safe. -/
  | notModelled (mnemonic : String)
  /-- Raised by a host access to a register window that is not 32 bits wide or not at a multiple-of-4 offset (R86). Safe. -/
  | windowAccess
  /-- Raised by a host write to the source region, or a host access to the destination region, of a command that is running
  or whose completion the host has not observed (R61, R176). Safe. -/
  | hostRace
  /-- Raised by a command whose region holds a byte that is admitted and lies on memory with side effects (R59). Safe. -/
  | deviceRegion
  /-- Raised by a GO whose command would run at once with another block's command on overlapping regions (R69). Safe. -/
  | blockRace
  /-- Raised by a host access to a byte of another device: the spec describes no device but the block (R158). Safe. -/
  | hostDevice
  /-- Raised by a turn or a reset of a block that the platform does not have: no such step exists (R9). Safe. -/
  | noSuchBlock
deriving DecidableEq, Repr

/-- The error codes a command can end with (R141). -/
inductive ErrCode where
  | malformedLength
  | sampleRange
  | illegalOp
  | align
  | range
  | overlap
  | geometry
  | busError
deriving DecidableEq, Repr

/-- The phase of an engine (R30). STATUS.BUSY is the phase (R40). -/
inductive Phase where
  | idle
  | busy
deriving DecidableEq, Repr

/-- The latched copies of the parameters (R31): `L.OP`, `L.CFA`, `L.SRC`, `L.DST`, `L.LEN`, `L.W`, `L.H`. -/
structure Latched where
  op : BitVec 4
  cfa : BitVec 2
  src : Word
  dst : Word
  len : Word
  w : Word
  h : Word
deriving DecidableEq, Repr

/-- One block: its port on the platform (R9) and every piece of state R40 lists. CMD stores its bits 5:0.

`unobserved` is the MODEL's own field, not the block's (R40): the host's side of R63 and R176. It lists the parameters of the
commands that a GO started and whose completion the host has not observed, newest first (log entry 20). -/
structure Block where
  port : Port
  cmd : BitVec 6
  done : Bool
  err : Bool
  goIgnored : Bool
  errCode : BitVec 4
  doneIe : Bool
  errIe : Bool
  srcAddr : Word
  dstAddr : Word
  len : Word
  width : Word
  height : Word
  outCount : Word
  phase : Phase
  latched : Latched
  unobserved : List Latched
deriving DecidableEq, Repr

/-- Memory: the bytes that do not read as `unlistedByte`, in rising order of address (R50). -/
abbrev Memory := List Host.Cell

/-- What a byte that no entry lists reads as. DESIGN CHOICE (log entry 1): the spec gives memory no power-on contents and
says that reset leaves them alone (R38). Unsafe for a claim about `State.reset`'s memory. -/
abbrev unlistedByte : Byte := 0#8

/-- The one form a memory has: addresses strictly rising and inside the address space, no entry equal to what an unlisted
address reads as. -/
abbrev Memory.wf (m : Memory) : Prop :=
  m.Pairwise (fun c d => c.1 < d.1) ∧ ∀ c ∈ m, c.1 < addressSpace ∧ c.2 ≠ unlistedByte

/-- The machine. `blk` is the block in focus (block 0), `others` the platform's other blocks (R69, R159), `busMap` the
platform's address map, `mem` the memory all share (R38, R50).

The last three fields are the MODEL's own. `lastRead` is the value the host's last read returned (R85). `agenda` lists what
happens next, oldest first: host accesses, turns of the engines, resets; it is how the interleaving of R8 and R182 is data.
`draws` counts the free values taken so far. -/
structure State where
  blk : Block
  others : List Block
  busMap : List BusRange
  mem : Memory
  lastRead : Option Datum
  agenda : List Event
  draws : Nat
deriving DecidableEq, Repr

/-- Latched copies with every field 0. DESIGN CHOICE (log entry 3): the spec leaves them unspecified after reset and no rule
reads them before a GO (R31, R39). -/
def Latched.zero : Latched :=
  { op := 0#4, cfa := 0#2, src := 0#32, dst := 0#32, len := 0#32, w := 0#32, h := 0#32 }

/-- A block right after reset (R39), with the latched copies it is given. -/
def Block.afterReset (p : Port) (l : Latched) : Block where
  port := p
  cmd := 0#6
  done := false
  err := false
  goIgnored := false
  errCode := 0#4
  doneIe := false
  errIe := false
  srcAddr := 0#32
  dstAddr := 0#32
  len := 0#32
  width := 0#32
  height := 0#32
  outCount := 0#32
  phase := .idle
  latched := l
  unobserved := []

/-- A platform right after reset (R39): every block reset, nothing listed in memory, nothing on the agenda. -/
def State.resetOn (p : Platform) : State where
  blk := Block.afterReset p.firstPort Latched.zero
  others := p.otherPorts.map fun q => Block.afterReset q Latched.zero
  busMap := p.busMap
  mem := []
  lastRead := none
  agenda := []
  draws := 0

/-- The machine right after reset, on the platform the model names. -/
def State.reset : State := State.resetOn Platform.simple

end Sys2Proof.Machine
end

