-- ==== Sys2Proof/Machine/Flags.lean ====
section
/-! DEFINITION. The flags of a block: the STATUS word, the error codes, the completion writes, write-one-to-clear, and the
interrupt output (10_state.md R25, R33, R36; 40_control.md R90, R93; 60_exceptions.md R141, R150). -/

namespace Sys2Proof.Machine

/-- ERRCODE values (R141). -/
def ErrCode.bits : ErrCode → BitVec 4
  | .malformedLength => 1#4
  | .sampleRange => 2#4
  | .illegalOp => 3#4
  | .align => 4#4
  | .range => 5#4
  | .overlap => 6#4
  | .geometry => 7#4
  | .busError => 8#4

/-- STATUS.BUSY is the phase (R30, R40). -/
def Block.busy (b : Block) : Bool := b.phase == .busy

/-- What a read of STATUS returns (R25): ERRCODE in bits 7:4, then GO_IGNORED, ERR, DONE, BUSY. -/
def Block.statusWord (b : Block) : Word :=
  0#24 ++ b.errCode ++ BitVec.ofBool b.goIgnored ++ BitVec.ofBool b.err ++ BitVec.ofBool b.done ++ BitVec.ofBool b.busy

/-- A host write to STATUS clears what its one bits name; writing 1 to ERR clears ERRCODE too (R93). -/
def Block.writeStatus (b : Block) (v : Word) : Block :=
  { b with
    done := b.done && !v.getLsbD 1
    err := b.err && !v.getLsbD 2
    errCode := if v.getLsbD 2 then 0#4 else b.errCode
    goIgnored := b.goIgnored && !v.getLsbD 3 }

/-- The interrupt output, a level (R33). -/
def Block.irq (b : Block) : Bool := (b.done && b.doneIe) || (b.err && b.errIe)

/-- The completion step's writes for the outcome `ok(n)` (R90). -/
def Block.completeOk (b : Block) (n : Nat) : Block :=
  { b with done := true, err := false, errCode := 0#4, outCount := BitVec.ofNat 32 n, phase := .idle }

/-- The completion step's writes for the outcome `error(code)` (R90, R140). -/
def Block.completeError (b : Block) (e : ErrCode) : Block :=
  { b with done := false, err := true, errCode := e.bits, outCount := 0#32, phase := .idle }

/-- The level of an interrupt line of the platform: asserted while a block routed to it asserts its output (R33, R150). -/
def State.irqLine (s : State) (line : Nat) : Bool :=
  (s.blk :: s.others).any fun b => b.port.irqRoute == line && b.irq

end Sys2Proof.Machine
end

