-- ==== Sys2Proof/Syntax.lean ====
section
/-! DEFINITION. The commands of RBP-1, one constructor per row of spec/opcode_table.json (00_scope.md R3, 30_encoding.md R72). -/

namespace Sys2Proof

/-- A command. SRC_ADDR, DST_ADDR, LEN, WIDTH and HEIGHT are no part of the command word: they are the latched
parameters of the block that runs it (R71). Only DEBAYER has an operand in the word, its CFA pattern; the CFA field of
the other three is ignored (R76). -/
inductive Instr where
  /-- OP = 0 (R89). -/
  | nop
  /-- OP = 1 (R102). -/
  | unpack12
  /-- OP = 2 (R106). -/
  | pack12
  /-- OP = 3 (R125). -/
  | debayer (cfa : CfaPattern)
deriving DecidableEq, Repr

end Sys2Proof
end

