-- ==== Sys2Proof/Decode.lean ====
section
/-! DEFINITION. The command word (30_encoding.md R70 to R78): decoding, total and by name, and the encoder written from the
same table. -/

namespace Sys2Proof

/-- The CFA field as a pattern (R73): every value is legal. -/
def CfaPattern.ofBits (v : BitVec 2) : CfaPattern :=
  if v = 0#2 then .rggb else if v = 1#2 then .bggr else if v = 2#2 then .grbg else .gbrg

/-- The CFA field of a pattern (R73). -/
def CfaPattern.toBits : CfaPattern → BitVec 2
  | .rggb => 0#2
  | .bggr => 1#2
  | .grbg => 2#2
  | .gbrg => 3#2

/-- What a command word decodes to (R77): a command, or a reserved opcode, refused by its number. -/
inductive Decoded where
  | command (i : Instr)
  | illegal (op : BitVec 4)
deriving DecidableEq, Repr

/-- The OP field, bits 3:0 (R70). -/
def opField (w : Word) : BitVec 4 := w.extractLsb' 0 4

/-- The CFA field, bits 5:4 (R70). -/
def cfaField (w : Word) : BitVec 2 := w.extractLsb' 4 2

/-- Decoding is total, from bits 3:0 alone, with bits 5:4 the operand of DEBAYER (R72, R77). -/
def decode (w : Word) : Decoded :=
  if opField w = 0#4 then .command .nop
  else if opField w = 1#4 then .command .unpack12
  else if opField w = 2#4 then .command .pack12
  else if opField w = 3#4 then .command (.debayer (CfaPattern.ofBits (cfaField w)))
  else .illegal (opField w)

/-- The command words the spec's programs use (R80, R81): the ignored CFA field of NOP, UNPACK12 and PACK12 is written 0. -/
def encode : Instr → Word
  | .nop => 0#32
  | .unpack12 => 1#32
  | .pack12 => 2#32
  | .debayer c => (c.toBits.setWidth 32 <<< 4) ||| 3#32

/-- The command the decoder reads from a word whose low `nbits` bits are those of `w` and whose other bits are 0; none for
a reserved opcode. A command is one 32-bit word (R71, R78), so there is no byte order to undo. -/
def decodeTableWord (nbits w : Nat) : Option Instr :=
  match decode (BitVec.ofNat 32 (w % 2 ^ nbits)) with
  | .command i => some i
  | .illegal _ => none

end Sys2Proof
end

