-- ==== Sys2Proof/Machine/Operands.lean ====
section
/-! DEFINITION. The operands of a command: the regions its latched parameters name (20_memory.md R55), the checks made on
them before any memory access (60_exceptions.md R142 to R144), and which of their bytes the platform admits (R146). -/

namespace Sys2Proof.Machine

/-- A region: `size` consecutive byte addresses from `start` (R14). -/
structure Region where
  start : Nat
  size : Nat
deriving DecidableEq, Repr

/-- The region holds this address (R14). -/
def Region.has (r : Region) (a : Nat) : Bool := decide (r.start ≤ a ∧ a < r.start + r.size)

/-- Two regions share a byte (R14, R144); an empty one shares none. -/
def Region.overlaps (r q : Region) : Bool :=
  decide (0 < r.size ∧ 0 < q.size ∧ r.start < q.start + q.size ∧ q.start < r.start + r.size)

/-- Every address of the region satisfies `p`. -/
def Region.all (r : Region) (p : Nat → Bool) : Bool := (List.range r.size).all fun i => p (r.start + i)

/-- Some address of the region satisfies `p`. -/
def Region.any (r : Region) (p : Nat → Bool) : Bool := (List.range r.size).any fun i => p (r.start + i)

/-- The two regions of a command and whether each must start at an even address (R55, R56). -/
structure Regions where
  src : Region
  dst : Region
  srcEven : Bool
  dstEven : Bool
deriving DecidableEq, Repr

/-- NOP, and a reserved opcode, touch nothing (R55, R75). -/
def noRegions : Regions :=
  { src := { start := 0, size := 0 }, dst := { start := 0, size := 0 }, srcEven := false, dstEven := false }

/-- UNPACK12's row of R55. -/
def unpackRegions (l : Latched) : Regions where
  src := { start := l.src.toNat, size := l.len.toNat }
  dst := { start := l.dst.toNat, size := 4 * (l.len.toNat / 3) }
  srcEven := false
  dstEven := true

/-- PACK12's row of R55. -/
def packRegions (l : Latched) : Regions where
  src := { start := l.src.toNat, size := 2 * l.len.toNat }
  dst := { start := l.dst.toNat, size := 3 * (l.len.toNat / 2) }
  srcEven := true
  dstEven := false

/-- DEBAYER's row of R55. -/
def debayerRegions (l : Latched) : Regions where
  src := { start := l.src.toNat, size := 2 * l.w.toNat * l.h.toNat }
  dst := { start := l.dst.toNat, size := 6 * l.w.toNat * l.h.toNat }
  srcEven := true
  dstEven := true

/-- The region checks, in the order of R147: ALIGN, RANGE (R143), OVERLAP (R144). -/
def regionError (r : Regions) : Option ErrCode :=
  if (r.srcEven && r.src.start % 2 != 0) || (r.dstEven && r.dst.start % 2 != 0) then some .align
  else if r.src.start + r.src.size > addressSpace || r.dst.start + r.dst.size > addressSpace then some .range
  else if r.src.overlaps r.dst then some .overlap
  else none

/-- The first error of UNPACK12 that is found before any memory access (R102, R142, R147). -/
def unpackCheck (l : Latched) : Option ErrCode :=
  if l.len.toNat % 3 != 0 then some .malformedLength else regionError (unpackRegions l)

/-- The first error of PACK12 that is found before any memory access (R106, R142, R147). -/
def packCheck (l : Latched) : Option ErrCode :=
  if l.len.toNat % 2 != 0 then some .malformedLength else regionError (packRegions l)

/-- The first error of DEBAYER that is found before any memory access (R125, R142, R147). -/
def debayerCheck (l : Latched) : Option ErrCode :=
  if l.w.toNat < 2 || l.h.toNat < 2 then some .geometry else regionError (debayerRegions l)

/-- The regions of a command (R55). -/
def instrRegions (l : Latched) : Instr → Regions
  | .nop => noRegions
  | .unpack12 => unpackRegions l
  | .pack12 => packRegions l
  | .debayer _ => debayerRegions l

/-- The first error of a command that is found before any memory access; NOP is subject to no check (R142). -/
def instrCheck (l : Latched) : Instr → Option ErrCode
  | .nop => none
  | .unpack12 => unpackCheck l
  | .pack12 => packCheck l
  | .debayer _ => debayerCheck l

/-- The command word a running command was latched from (R31, R70). -/
def Latched.commandWord (l : Latched) : Word := 0#26 ++ l.cfa ++ l.op

/-- The regions of the command that is latched (R55). -/
def Latched.regions (l : Latched) : Regions :=
  match decode l.commandWord with
  | .command i => instrRegions l i
  | .illegal _ => noRegions

/-- The latched command passes every check made before its first memory access, so it goes on to access memory (R142 to
R145). -/
def Latched.accesses (l : Latched) : Bool :=
  match decode l.commandWord with
  | .command i => (instrCheck l i).isNone
  | .illegal _ => false

/-- The register window of a block (R22). -/
def Block.window (b : Block) : Region := { start := b.port.base.toNat, size := windowBytes }

/-- The range of the platform's map that answers at an address: the first that holds it (R9, R60). -/
def lookupRange (m : List BusRange) (a : Nat) : Option BusRange :=
  m.find? fun r => decide (r.base ≤ a ∧ a < r.base + r.size)

/-- The platform admits this access at this address, no block's own window considered (R9). -/
def busAdmits (m : List BusRange) (k : AccessKind) (a : Nat) : Bool :=
  decide (a < addressSpace) &&
    match lookupRange m a, k with
    | some r, .read => r.admitsRead
    | some r, .write => r.admitsWrite
    | none, _ => false

/-- The address lies on memory with side effects, by the platform's map (R59). -/
def busDevice (m : List BusRange) (a : Nat) : Bool :=
  match lookupRange m a with
  | some r => r.device
  | none => false

/-- `BUS_ADMITS(a, kind)` as the engine of the block in focus meets it: never on the block's own window (R51, R146). -/
def State.admits (s : State) (k : AccessKind) (a : Nat) : Bool :=
  !s.blk.window.has a && busAdmits s.busMap k a

/-- The address lies on a device for the engine of the block in focus: a device of the platform, or the register window of
another block (R59, R158). -/
def State.isDevice (s : State) (a : Nat) : Bool :=
  busDevice s.busMap a || s.others.any fun b => b.window.has a

/-- Some byte of the regions is admitted and lies on a device, so the command has no meaning (R59). -/
def State.onDevice (s : State) (r : Regions) : Bool :=
  r.src.any (fun a => s.admits .read a && s.isDevice a) || r.dst.any (fun a => s.admits .write a && s.isDevice a)

/-- Every byte of the source region is admitted for read and every byte of the destination region for write, so BUS_ERROR
does not apply (R146). -/
def State.admitsRegions (s : State) (r : Regions) : Bool :=
  r.src.all (s.admits .read) && r.dst.all (s.admits .write)

/-- Two commands running at once on different blocks race: the destination of one meets a region of the other (R69). -/
def Regions.conflict (r q : Regions) : Bool :=
  r.dst.overlaps q.src || r.dst.overlaps q.dst || r.src.overlaps q.dst

end Sys2Proof.Machine
end

