-- ==== Sys2Proof/Machine/Ops.lean ====
section
/-! DEFINITION. The named operations over memory and blocks that the meanings share: `MemRead` and `MemWrite` (00_scope.md
R13, 20_memory.md R52), one lane after another of a command's destination, ending a command with an error (60_exceptions.md
R145, R148), the memory phase of a command (R146, R147), and choosing the block in focus. -/

namespace Sys2Proof.Machine

/-- `MemRead(a, 1)` (R13). -/
def Memory.read : Memory → Nat → Byte
  | [], _ => unlistedByte
  | c :: m, a => if c.1 = a then c.2 else Memory.read m a

/-- A cell entered at its place in the order of addresses. -/
def Memory.place : Memory → Nat → Byte → Memory
  | [], a, v => [(a, v)]
  | c :: m, a, v => if a < c.1 then (a, v) :: c :: m else c :: Memory.place m a v

/-- `MemWrite(a, 1, v)` (R13), in canonical form: the value an unlisted address reads as is not listed. -/
def Memory.write (m : Memory) (a : Nat) (v : Byte) : Memory :=
  if v = unlistedByte then m.filter (fun c => c.1 != a) else Memory.place (m.filter fun c => c.1 != a) a v

/-- Bytes stored at increasing addresses from `a`. -/
def Memory.writeBytes : Memory → Nat → List Byte → Memory
  | m, _, [] => m
  | m, a, v :: vs => Memory.writeBytes (Memory.write m a v) (a + 1) vs

/-- `MemRead(a, 2)`, little-endian (R52). -/
def Memory.readCell (m : Memory) (a : Nat) : Cell := Memory.read m (a + 1) ++ Memory.read m a

/-- The two bytes `MemWrite(a, 2, v)` stores, the one at the lower address first (R52). -/
def cellBytes (v : Cell) : List Byte := [v.extractLsb' 0 8, v.extractLsb' 8 8]

/-- Four bytes as a little-endian word: a host's 32-bit access to memory. DEDUCED (log entry 6) from the order of R52. -/
def Memory.readWord (m : Memory) (a : Nat) : Word := Memory.readCell m (a + 2) ++ Memory.readCell m a

/-- The four bytes a host's 32-bit write stores. DEDUCED (log entry 6) from the order of R52. -/
def wordBytes (v : Word) : List Byte := cellBytes (v.extractLsb' 0 16) ++ cellBytes (v.extractLsb' 16 16)

/-- Lane `k`, for each `k` of `ks` in that order, stores its bytes at `dst + stride * k` (R102, R106, R125: "any order"). -/
def Memory.writeLanes (m : Memory) (dst stride : Nat) (lane : Nat → List Byte) (ks : List Nat) : Memory :=
  ks.foldl (fun acc k => Memory.writeBytes acc (dst + stride * k) (lane k)) m

/-- Every byte of the region that is admitted for write takes a free value, one draw a byte (R148, R171). -/
def Memory.scramble (m : Memory) (r : Region) (admits : Nat → Bool) (draws : Nat) : Memory :=
  (List.range r.size).foldl
    (fun acc i => if admits (r.start + i) then Memory.write acc (r.start + i) (Config.freeByte (draws + i)) else acc) m

/-- The same state with the block in focus replaced. -/
def State.setBlk (s : State) (b : Block) : State := { s with blk := b }

/-- The same state with its memory replaced. -/
def State.setMem (s : State) (m : Memory) : State := { s with mem := m }

/-- The same state with its agenda replaced. -/
def State.setAgenda (s : State) (es : List Event) : State := { s with agenda := es }

/-- The same state with the host's last read replaced. -/
def State.setLastRead (s : State) (d : Datum) : State := { s with lastRead := some d }

/-- The same state with `n` more free values drawn. -/
def State.drawn (s : State) (n : Nat) : State := { s with draws := s.draws + n }

/-- The admitted bytes of a region take free values (R148, R171). -/
def State.scramble (s : State) (r : Region) : State :=
  (s.setMem (Memory.scramble s.mem r (s.admits .write) s.draws)).drawn r.size

/-- The completion step of the outcome `error(code)` (R90, R145): how a command takes an error. The block has no trap:
nothing is saved and no control moves (R140, R152). -/
def State.raiseError (s : State) (e : ErrCode) : State := s.setBlk (s.blk.completeError e)

/-- The completion step of the outcome `ok(n)` (R90). -/
def State.complete (s : State) (n : Nat) : State := s.setBlk (s.blk.completeOk n)

/-- The execution error of a command whose regions are `r` (R146), `sampleBad` saying that SAMPLE_RANGE applies; where both
apply the code is a free choice (R147). -/
def State.accessError (s : State) (r : Regions) (sampleBad : Bool) : Option ErrCode :=
  match sampleBad, s.admitsRegions r with
  | true, true => some .sampleRange
  | true, false => some (if Config.freeChoice s.draws then .sampleRange else .busError)
  | false, false => some .busError
  | false, true => none

/-- The memory phase of a command that passed the checks: it is refused on a device (R59), ends with an execution error and
a destination of free values (R146, R148), or stores its result, `m`, and completes with `n` elements (R90). -/
def State.accessMemory (s : State) (r : Regions) (sampleBad : Bool) (m : Memory) (n : Nat) :
    Host.Outcome State Fault Refusal :=
  if s.onDevice r then .refused .deviceRegion
  else
    match s.accessError r sampleBad with
    | some e => .next ((s.scramble r.dst).raiseError e)
    | none => .next ((s.setMem m).complete n)

/-- The next state, changed; a fault or a refusal, kept. -/
def mapNext (f : State → State) : Host.Outcome State Fault Refusal → Host.Outcome State Fault Refusal
  | .next s => .next (f s)
  | .fault r => .fault r
  | .refused r => .refused r

/-- Block `k + 1` and the block in focus change places. -/
def State.swap (s : State) (k : Nat) : State :=
  match s.others[k]? with
  | some b => { s with blk := b, others := s.others.set k s.blk }
  | none => s

/-- A step of block `k`: the block is brought into focus, takes the step, and goes back to its place. -/
def State.onBlock (s : State) (k : Nat) (f : State → Host.Outcome State Fault Refusal) :
    Host.Outcome State Fault Refusal :=
  match k with
  | 0 => f s
  | j + 1 => if j < s.others.length then mapNext (fun t => t.swap j) (f (s.swap j)) else .refused .noSuchBlock

end Sys2Proof.Machine
end

