-- ==== Sys2Proof/Machine/Codec.lean ====
section
/-! DEFINITION. The 12-bit codec family: UNPACK12 and PACK12 (41_bitpacker.md). -/

namespace Sys2Proof.Machine

/-- The first sample of a group, `s0 = (b0 << 4) | (b1 >> 4)` (R100). -/
def unpackFirst (b0 b1 : Byte) : Cell := (b0.setWidth 16 <<< 4) ||| (b1.setWidth 16 >>> 4)

/-- The second sample of a group, `s1 = ((b1 & 0x0F) << 8) | b2` (R100). -/
def unpackSecond (b1 b2 : Byte) : Cell := ((b1 &&& 0x0F#8).setWidth 16 <<< 8) ||| b2.setWidth 16

/-- The first byte of a pair, `b0 = s0 >> 4` (R101). -/
def packFirst (s0 : Cell) : Byte := (s0 >>> 4).setWidth 8

/-- The second byte of a pair, `b1 = ((s0 & 0xF) << 4) | (s1 >> 8)` (R101). -/
def packSecond (s0 s1 : Cell) : Byte := (((s0 &&& 0xF#16) <<< 4) ||| (s1 >>> 8)).setWidth 8

/-- The third byte of a pair, `b2 = s1 & 0xFF` (R101). -/
def packThird (s1 : Cell) : Byte := (s1 &&& 0xFF#16).setWidth 8

/-- Lane `k` of UNPACK12: the two cells of group `k`, as bytes (R102, R111). -/
def unpackLane (m : Memory) (src k : Nat) : List Byte :=
  let b0 := Memory.read m (src + 3 * k)
  let b1 := Memory.read m (src + 3 * k + 1)
  let b2 := Memory.read m (src + 3 * k + 2)
  cellBytes (unpackFirst b0 b1) ++ cellBytes (unpackSecond b1 b2)

/-- Lane `k` of PACK12: the three bytes of group `k` (R106, R111). -/
def packLane (m : Memory) (src k : Nat) : List Byte :=
  let s0 := Memory.readCell m (src + 4 * k)
  let s1 := Memory.readCell m (src + 4 * k + 2)
  [packFirst s0, packSecond s0 s1, packThird s1]

/-- The memory UNPACK12 leaves (R102). -/
def unpackResult (m : Memory) (l : Latched) : Memory :=
  Memory.writeLanes m l.dst.toNat 4 (unpackLane m l.src.toNat) (List.range (l.len.toNat / 3))

/-- The memory PACK12 leaves (R106). -/
def packResult (m : Memory) (l : Latched) : Memory :=
  Memory.writeLanes m l.dst.toNat 3 (packLane m l.src.toNat) (List.range (l.len.toNat / 2))

/-- SAMPLE_RANGE applies: some source cell, both of whose bytes are admitted for read, is above 4095 (R146). -/
def State.sampleTooLarge (s : State) (l : Latched) : Bool :=
  (List.range l.len.toNat).any fun i =>
    s.admits .read (l.src.toNat + 2 * i) && s.admits .read (l.src.toNat + 2 * i + 1) &&
      decide ((Memory.readCell s.mem (l.src.toNat + 2 * i)).toNat > maxSample)

/-- UNPACK12 (R102): `LEN / 3` groups, two samples each. -/
def execUnpack12 (s : State) : Host.Outcome State Fault Refusal :=
  let l := s.blk.latched
  match unpackCheck l with
  | some e => .next (s.raiseError e)
  | none => s.accessMemory (unpackRegions l) false (unpackResult s.mem l) (2 * (l.len.toNat / 3))

/-- PACK12 (R106): `LEN / 2` groups, three bytes each. -/
def execPack12 (s : State) : Host.Outcome State Fault Refusal :=
  let l := s.blk.latched
  match packCheck l with
  | some e => .next (s.raiseError e)
  | none => s.accessMemory (packRegions l) (s.sampleTooLarge l) (packResult s.mem l) (3 * (l.len.toNat / 2))

end Sys2Proof.Machine
end

