-- ==== Sys2Proof/Machine/Control.lean ====
section
/-! DEFINITION. The control family: the register window, GO, reset, and the NOP command (40_control.md, 10_state.md R22 to
R35, 70_reset_and_hazards.md R171). -/

namespace Sys2Proof.Machine

/-- The offset of a register in the window (R22). -/
def Reg.offset : Reg → Nat
  | .cmd => 0x00
  | .ctrl => 0x04
  | .status => 0x08
  | .irqEn => 0x0C
  | .srcAddr => 0x10
  | .dstAddr => 0x14
  | .len => 0x18
  | .width => 0x1C
  | .height => 0x20
  | .outCount => 0x24

/-- The register at an offset; none at the unmapped offsets (R22, R34). -/
def Reg.ofOffset (off : Nat) : Option Reg :=
  [Reg.cmd, .ctrl, .status, .irqEn, .srcAddr, .dstAddr, .len, .width, .height, .outCount].find? fun r => r.offset == off

/-- What a read of a register returns, reserved bits 0; it changes nothing (R22 to R33, R85). -/
def Block.readReg (b : Block) : Reg → Word
  | .cmd => 0#26 ++ b.cmd
  | .ctrl => 0#32
  | .status => b.statusWord
  | .irqEn => 0#30 ++ BitVec.ofBool b.errIe ++ BitVec.ofBool b.doneIe
  | .srcAddr => b.srcAddr
  | .dstAddr => b.dstAddr
  | .len => b.len
  | .width => b.width
  | .height => b.height
  | .outCount => b.outCount

/-- The parameters that GO latches (R31). CMD.OP is bits 3:0 and CMD.CFA bits 5:4 (R23). -/
def Block.parameters (b : Block) : Latched where
  op := b.cmd.extractLsb' 0 4
  cfa := b.cmd.extractLsb' 4 2
  src := b.srcAddr
  dst := b.dstAddr
  len := b.len
  w := b.width
  h := b.height

/-- GO while idle (R87). From here the host has to observe the command's completion (R176). -/
def Block.start (b : Block) : Block :=
  { b with
    latched := b.parameters, done := false, err := false, errCode := 0#4, outCount := 0#32, phase := .busy
    unobserved := b.parameters :: b.unobserved }

/-- The host observes that the block is idle: every command of it has completed, and the host knows it (R63). A running command
stays unobserved. -/
def Block.observe (b : Block) : Block := { b with unobserved := if b.busy then b.unobserved else [] }

/-- What a host read of a register does to what the host knows: a read of STATUS that returns BUSY = 0 observes completion
(R63). No register changes (R85). -/
def Block.afterRead (b : Block) : Reg → Block
  | .status => b.observe
  | _ => b

/-- A host write to CTRL: bit 0 is GO (R24), which starts a command while idle (R87) and is dropped while busy (R88). -/
def Block.writeCtrl (b : Block) (v : Word) : Block :=
  if v.getLsbD 0 then
    match b.phase with
    | .idle => b.start
    | .busy => { b with goIgnored := true }
  else b

/-- A host write to a register (R85, R93, R94). OUT_COUNT ignores it (R32). -/
def Block.writeReg (b : Block) (r : Reg) (v : Word) : Block :=
  match r with
  | .cmd => { b with cmd := v.extractLsb' 0 6 }
  | .ctrl => b.writeCtrl v
  | .status => b.writeStatus v
  | .irqEn => { b with doneIe := v.getLsbD 0, errIe := v.getLsbD 1 }
  | .srcAddr => { b with srcAddr := v }
  | .dstAddr => { b with dstAddr := v }
  | .len => { b with len := v }
  | .width => { b with width := v }
  | .height => { b with height := v }
  | .outCount => b

/-- A running command of another block races with this block's latched command (R69). -/
def State.racesOthers (s : State) : Bool :=
  s.others.any fun b => b.busy && s.blk.latched.regions.conflict b.latched.regions

/-- A host read at an offset of the focused block's window (R34, R85). -/
def State.readWindow (s : State) (off : Nat) : Host.Outcome State Fault Refusal :=
  match Reg.ofOffset off with
  | some r => .next ((s.setBlk (s.blk.afterRead r)).setLastRead (.word (s.blk.readReg r)))
  | none => .next (s.setLastRead (.word 0#32))

/-- A host write at an offset of the focused block's window (R34, R85). A GO that starts a command racing with another
block's has no meaning (R69). -/
def State.writeWindow (s : State) (off : Nat) (v : Word) : Host.Outcome State Fault Refusal :=
  match Reg.ofOffset off with
  | some r =>
    let t := s.setBlk (s.blk.writeReg r v)
    if !s.blk.busy && t.blk.busy && t.racesOthers then .refused .blockRace else .next t
  | none => .next s

/-- The latched copies after a reset: unspecified, so free (R31, R39). -/
def freeLatched (draws : Nat) : Latched where
  op := (Config.freeWord draws).setWidth 4
  cfa := (Config.freeWord (draws + 1)).setWidth 2
  src := Config.freeWord (draws + 2)
  dst := Config.freeWord (draws + 3)
  len := Config.freeWord (draws + 4)
  w := Config.freeWord (draws + 5)
  h := Config.freeWord (draws + 6)

/-- What reset does to memory: the destination of a running command takes free values, all else is kept (R171). -/
def State.abandon (s : State) : State := if s.blk.busy then s.scramble s.blk.latched.regions.dst else s

/-- The block's registers take their reset values, its latched copies free ones (R39, R171). -/
def State.resetBlk (s : State) : State :=
  (s.setBlk (Block.afterReset s.blk.port (freeLatched s.draws))).drawn 7

/-- The reset input of the focused block (R170, R171). Abandoning a command that was accessing a device has no meaning
(R59). -/
def State.assertReset (s : State) : Host.Outcome State Fault Refusal :=
  if s.blk.busy && s.blk.latched.accesses && s.onDevice s.blk.latched.regions then .refused .deviceRegion
  else .next s.abandon.resetBlk

/-- NOP completes: no check, no memory access, no element (R89). -/
def execNop (s : State) : Host.Outcome State Fault Refusal := .next (s.complete 0)

end Sys2Proof.Machine
end

