-- ==== Sys2Proof/Machine/Debayer.lean ====
section
/-! DEFINITION. The CFA debayer family: DEBAYER (42_debayer.md). -/

namespace Sys2Proof.Machine

/-- The colours of a pattern's 2 by 2 tile: even row and even column, even row and odd column, odd row and even column, odd
row and odd column (R121). -/
def tile : CfaPattern → Colour × Colour × Colour × Colour
  | .rggb => (.r, .g, .g, .b)
  | .bggr => (.b, .g, .g, .r)
  | .grbg => (.g, .r, .b, .g)
  | .gbrg => (.g, .b, .r, .g)

/-- The colour of the site in column `x` and row `y` (R121). -/
def colour (c : CfaPattern) (x y : Nat) : Colour :=
  let (p0, p1, p2, p3) := tile c
  if y % 2 = 0 then (if x % 2 = 0 then p0 else p1) else (if x % 2 = 0 then p2 else p3)

/-- `raw(x, y)`: the cell of a site of a grid `w` sites wide at `src` (R122). -/
def rawCell (m : Memory) (src w x y : Nat) : Cell := Memory.readCell m (src + 2 * (y * w + x))

/-- The eight places around a site, each coordinate counted one up so that 0 is a place left of, or above, the grid (R124). -/
def around (x y : Nat) : List (Nat × Nat) :=
  [(x, y), (x + 1, y), (x + 2, y), (x, y + 1), (x + 2, y + 1), (x, y + 2), (x + 1, y + 2), (x + 2, y + 2)]

/-- `N(c, x, y)`: the sites of colour `c` among the adjacent sites inside the grid of `w` by `h` sites (R124). -/
def neighbours (cfa : CfaPattern) (w h : Nat) (c : Colour) (x y : Nat) : List (Nat × Nat) :=
  (((around x y).filter fun p => decide (1 ≤ p.1 ∧ 1 ≤ p.2)).map fun p => (p.1 - 1, p.2 - 1)).filter fun p =>
    decide (p.1 < w ∧ p.2 < h ∧ colour cfa p.1 p.2 = c)

/-- The mean of `n` values of sum `total`, to the nearest integer, halves up (R126). -/
def roundedMean (total n : Nat) : Nat := (2 * total + n) / (2 * n)

/-- One output channel of a site: the raw cell where the site has that colour, else the rounded mean of its neighbours of
that colour (R125). -/
def channel (m : Memory) (src : Nat) (cfa : CfaPattern) (w h : Nat) (c : Colour) (x y : Nat) : Cell :=
  if colour cfa x y = c then rawCell m src w x y
  else
    let ns := neighbours cfa w h c x y
    BitVec.ofNat 16 (roundedMean (ns.map fun p => (rawCell m src w p.1 p.2).toNat).sum ns.length)

/-- Lane `k` of DEBAYER: the pixel of the site `(k mod w, k div w)`, its cells R, G, B as bytes (R123, R125). -/
def debayerLane (m : Memory) (src : Nat) (cfa : CfaPattern) (w h k : Nat) : List Byte :=
  cellBytes (channel m src cfa w h .r (k % w) (k / w)) ++ cellBytes (channel m src cfa w h .g (k % w) (k / w)) ++
    cellBytes (channel m src cfa w h .b (k % w) (k / w))

/-- The memory DEBAYER leaves (R125). -/
def debayerResult (m : Memory) (l : Latched) (cfa : CfaPattern) : Memory :=
  Memory.writeLanes m l.dst.toNat 6 (debayerLane m l.src.toNat cfa l.w.toNat l.h.toNat)
    (List.range (l.w.toNat * l.h.toNat))

/-- DEBAYER (R125): `W * H` pixels. -/
def execDebayer (cfa : CfaPattern) (s : State) : Host.Outcome State Fault Refusal :=
  let l := s.blk.latched
  match debayerCheck l with
  | some e => .next (s.raiseError e)
  | none => s.accessMemory (debayerRegions l) false (debayerResult s.mem l cfa) (l.w.toNat * l.h.toNat)

end Sys2Proof.Machine
end

