-- ==== Sys2Proof/Machine/Dispatch.lean ====
section
/-! DEFINITION. One arm per command: the completion step of a command in the state of the block that runs it (40_control.md
R90). -/

namespace Sys2Proof.Machine

def exec (i : Instr) (s : State) : Host.Outcome State Fault Refusal :=
  match i with
  | .nop => Sys2Proof.Machine.execNop s
  | .unpack12 => Sys2Proof.Machine.execUnpack12 s
  | .pack12 => Sys2Proof.Machine.execPack12 s
  | .debayer cfa => Sys2Proof.Machine.execDebayer cfa s

end Sys2Proof.Machine
end

