-- ==== Sys2Proof/Machine/HostPort.lean ====
section
/-! DEFINITION. The host's side of the bus: which accesses reach a register window, which reach memory, and which the spec
gives no meaning (40_control.md R85, R86; 20_memory.md R59, R61). -/

namespace Sys2Proof.Machine

/-- The number of bytes an access touches. -/
def AccessWidth.bytes : AccessWidth → Nat
  | .byte => 1
  | .cell => 2
  | .word => 4

/-- The width of a value. -/
def Datum.width : Datum → AccessWidth
  | .byte _ => .byte
  | .cell _ => .cell
  | .word _ => .word

/-- The bytes of a value in increasing address order (R52). -/
def Datum.toBytes : Datum → List Byte
  | .byte v => [v]
  | .cell v => cellBytes v
  | .word v => wordBytes v

/-- The value of some width at an address (R52). -/
def Memory.readDatum (m : Memory) (a : Nat) : AccessWidth → Datum
  | .byte => .byte (Memory.read m a)
  | .cell => .cell (Memory.readCell m a)
  | .word => .word (Memory.readWord m a)

/-- The bytes an access touches. -/
def HostAccess.region : HostAccess → Region
  | .read a w => { start := a.toNat, size := w.bytes }
  | .write a d => { start := a.toNat, size := d.width.bytes }

/-- The kind of an access. -/
def HostAccess.kind : HostAccess → AccessKind
  | .read _ _ => .read
  | .write _ _ => .write

/-- The block whose register window an access touches, if any (R22). -/
def State.windowTouched (s : State) (a : HostAccess) : Option Nat :=
  (s.blk :: s.others).findIdx? fun b => b.window.overlaps a.region

/-- A host access to the focused block's window: 32 bits wide at a multiple-of-4 offset, or refused (R85, R86). -/
def State.accessWindow (s : State) (a : HostAccess) : Host.Outcome State Fault Refusal :=
  let off := a.region.start - s.blk.window.start
  if s.blk.window.start ≤ a.region.start ∧ off + 4 ≤ windowBytes ∧ off % 4 = 0 then
    match a with
    | .read _ .word => s.readWindow off
    | .write _ (.word v) => s.writeWindow off v
    | _ => .refused .windowAccess
  else .refused .windowAccess

/-- The access races with a command of these parameters: a write to its source region, or any access to its destination
region (R61). -/
def Latched.races (l : Latched) (a : HostAccess) : Bool :=
  a.region.overlaps l.regions.dst || (a.kind == .write && a.region.overlaps l.regions.src)

/-- The access races with a command of this block: one that is running (R61), or one from its GO until the host has observed
its completion (R176). -/
def Block.races (b : Block) (a : HostAccess) : Bool :=
  (b.busy && b.latched.races a) || b.unobserved.any fun l => l.races a

/-- A host access to memory. One the platform does not admit, or that leaves the address space, is a fault; one to another
device, or that races with a command, has no meaning (R60, R61, R176). DESIGN CHOICE (log entry 17): an access of 16 or 32
bits may start at any address, aligned or not; the spec gives the host's memory accesses no alignment rule. DESIGN CHOICE (log
entry 18): where several of these apply to one access, the first in this order is the answer; the spec gives them none. -/
def State.accessHostMemory (s : State) (a : HostAccess) : Host.Outcome State Fault Refusal :=
  if a.region.start + a.region.size > addressSpace then .fault .hostPastTop
  else if !a.region.all (busAdmits s.busMap a.kind) then .fault .hostBusError
  else if a.region.any (busDevice s.busMap) then .refused .hostDevice
  else if (s.blk :: s.others).any fun b => b.races a then .refused .hostRace
  else
    match a with
    | .read addr w => .next (s.setLastRead (Memory.readDatum s.mem addr.toNat w))
    | .write addr d => .next (s.setMem (Memory.writeBytes s.mem addr.toNat d.toBytes))

/-- One host access: to the window it touches, else to memory (R85, R86). DESIGN CHOICE (log entry 21): an access to a window
is no access to memory and is made with no test for a race, also where a region of a command covers the window: R61's words
would refuse it, R85 and R94 accept it in either phase. -/
def State.hostAccess (s : State) (a : HostAccess) : Host.Outcome State Fault Refusal :=
  match s.windowTouched a with
  | some k => s.onBlock k fun t => t.accessWindow a
  | none => s.accessHostMemory a

end Sys2Proof.Machine
end

