-- ==== Sys2Proof/Machine/Engine.lean ====
section
/-! DEFINITION. What one event of the agenda does: the engine's one completion step (40_control.md R90), a host access, a
host that waits (30_encoding.md R79, 20_memory.md R63), a reset (70_reset_and_hazards.md R171). -/

namespace Sys2Proof.Machine

/-- The completion step of the focused block: the latched command word is decoded and its command executed; a reserved
opcode ends with ILLEGAL_OP and no memory access (R75, R90, R142). -/
def State.completionStep (s : State) : Host.Outcome State Fault Refusal :=
  match decode s.blk.latched.commandWord with
  | .command i => exec i s
  | .illegal _ => .next (s.raiseError .illegalOp)

/-- A turn of the focused block's engine: it has a step only in phase BUSY (R30, R161). -/
def State.engineTurn (s : State) : Host.Outcome State Fault Refusal :=
  if s.blk.busy then s.completionStep else .next s

/-- One turn for every engine, in order. -/
def State.allTurns (s : State) : List Event := (List.range (s.others.length + 1)).map Event.engine

/-- The host looks again later: the engines get a turn first, so that a host that waits never keeps a command from
completing (R91, R182). DESIGN CHOICE (log entry 7): one turn each between two looks. -/
def State.waitAgain (s : State) (e : Event) : State := s.setAgenda (s.allTurns ++ e :: s.agenda)

/-- The host's last read returned a word whose bits under `mask` are `value` (R79). -/
def State.polled (s : State) (mask value : Word) : Bool :=
  match s.lastRead with
  | some (.word t) => t &&& mask == value
  | _ => false

/-- The host takes the interrupt of a line: a block that asserts it is observed (R63). -/
def Block.taken (line : Nat) (b : Block) : Block := if b.port.irqRoute == line && b.irq then b.observe else b

/-- The host takes the interrupt of a line, which observes every block that asserts it (R63). -/
def State.takeLine (s : State) (line : Nat) : State :=
  { s with blk := s.blk.taken line, others := s.others.map (Block.taken line) }

/-- One event, already taken off the agenda. -/
def State.runEvent (s : State) : Event → Host.Outcome State Fault Refusal
  | .bus a => s.hostAccess a
  | .poll a mask value =>
    mapNext (fun t => if t.polled mask value then t else t.waitAgain (.poll a mask value))
      (s.hostAccess (.read a .word))
  | .takeIrq line => .next (if s.irqLine line then s.takeLine line else s.waitAgain (.takeIrq line))
  | .engine k => s.onBlock k State.engineTurn
  | .reset k => s.onBlock k State.assertReset

/-- The first block whose command is running. -/
def State.firstBusy (s : State) : Option Nat := (s.blk :: s.others).findIdx? Block.busy

/-- Nothing is on the agenda: the first running command completes (R91); with none running the machine rests (R161). -/
def State.unattended (s : State) : Host.Outcome State Fault Refusal :=
  match s.firstBusy with
  | some k => s.onBlock k State.completionStep
  | none => .next s

/-- The focused block with this command word in CMD and GO given, next to take its engine's turn (R87). -/
def State.launch (s : State) (w : Word) : State :=
  { s with blk := (s.blk.writeReg .cmd w).start, agenda := .engine 0 :: s.agenda }

end Sys2Proof.Machine
end

