-- ==== Sys2Proof/Machine/Step.lean ====
section
/-! DEFINITION. One step of the machine, and where it finds its next command. -/

namespace Sys2Proof.Machine

/-- The oldest event of the agenda happens; with none, the engines run on their own (R8, R182). -/
def step (s : State) : Host.Outcome State Fault Refusal :=
  match s.agenda with
  | [] => s.unattended
  | e :: rest => (s.setAgenda rest).runEvent e

/-- The machine fetches no program (R21): a command is found in CMD when GO latches it. This state holds that word in CMD,
GO has latched it with the parameter registers as they stand, and the engine's turn is next (log entry 8). -/
def State.withFetchWord (s : State) (nbits w : Nat) : State := s.launch (BitVec.ofNat 32 (w % 2 ^ nbits))

end Sys2Proof.Machine
end

