-- ==== Sys2Proof/Safety.lean ====
section
/-! DEFINITION. What a safe state is, and what a step must leave alone, in the terms the claims use. -/

namespace Sys2Proof.Machine

/-- What STATUS, OUT_COUNT and the phase of a block always say together: DONE and ERR are never both 1, ERRCODE is a code of
the table exactly while ERR is 1, a failed command counts nothing, and a running command has neither flag nor count (R25,
R32, R87, R90, R141), and the host has yet to observe its completion (R176). -/
abbrev Block.consistent (b : Block) : Prop :=
  ¬(b.done = true ∧ b.err = true) ∧ (b.err = false → b.errCode = 0#4) ∧
    (b.err = true → 1 ≤ b.errCode.toNat ∧ b.errCode.toNat ≤ 8 ∧ b.outCount = 0#32) ∧
      (b.phase = .busy → b.done = false ∧ b.err = false ∧ b.outCount = 0#32 ∧ b.latched ∈ b.unobserved)

/-- The commands of two blocks do not race: not both run, or neither's destination meets a region of the other (R69). -/
abbrev Block.keepsApart (b c : Block) : Prop :=
  b.phase = .busy → c.phase = .busy → b.latched.regions.conflict c.latched.regions = false

/-- The blocks of a state, block 0 first. -/
abbrev State.blocks (s : State) : List Block := s.blk :: s.others

/-- The invariant of the machine. -/
abbrev State.Inv (s : State) : Prop :=
  Memory.wf s.mem ∧ (∀ b ∈ s.blocks, Block.consistent b) ∧ s.blocks.Pairwise Block.keepsApart

/-- The configuration a state carries (R9, R10): nothing the machine does changes it. -/
def State.platform (s : State) : Platform where
  firstPort := s.blk.port
  otherPorts := s.others.map Block.port
  busMap := s.busMap

/-- Two memories agree on every byte outside a region. -/
abbrev Memory.agreeOutside (m n : Memory) (r : Region) : Prop :=
  ∀ a, r.has a = false → Memory.read n a = Memory.read m a

/-- Two memories agree on every byte. -/
abbrev Memory.agree (m n : Memory) : Prop := ∀ a, Memory.read n a = Memory.read m a

/-- Everything of a block but what a completion step writes (R90): DONE, ERR, ERRCODE, OUT_COUNT and the phase. -/
abbrev Block.sameButOutcome (b c : Block) : Prop :=
  c.port = b.port ∧ c.cmd = b.cmd ∧ c.goIgnored = b.goIgnored ∧ c.doneIe = b.doneIe ∧ c.errIe = b.errIe ∧
    c.srcAddr = b.srcAddr ∧ c.dstAddr = b.dstAddr ∧ c.len = b.len ∧ c.width = b.width ∧ c.height = b.height ∧
      c.latched = b.latched ∧ c.unobserved = b.unobserved

/-- Everything of a state but the focused block, the memory and the count of draws. -/
abbrev State.sameAround (s t : State) : Prop :=
  t.others = s.others ∧ t.busMap = s.busMap ∧ t.lastRead = s.lastRead ∧ t.agenda = s.agenda

/-- The outcome `ok(n)` as the completion step writes it (R90). -/
abbrev Block.showsOk (b : Block) (n : Nat) : Prop :=
  b.done = true ∧ b.err = false ∧ b.errCode = 0#4 ∧ b.outCount.toNat = n ∧ b.phase = .idle

/-- The outcome `error(code)` as the completion step writes it (R90). -/
abbrev Block.showsError (b : Block) (code : BitVec 4) : Prop :=
  b.done = false ∧ b.err = true ∧ b.errCode = code ∧ b.outCount = 0#32 ∧ b.phase = .idle

/-- The next state of a step changes nothing but the focused block's outcome: an error found before any memory access
(R148). -/
abbrev State.failsUntouched (s t : State) (code : BitVec 4) : Prop :=
  t.blk.showsError code ∧ s.blk.sameButOutcome t.blk ∧ s.sameAround t ∧ t.mem = s.mem ∧ t.draws = s.draws

/-- The bits of a register that are not reserved (R23 to R29, R32). -/
def implementedBits : Reg → Word
  | .cmd => 0x3F#32
  | .ctrl => 0x1#32
  | .status => 0xFF#32
  | .irqEn => 0x3#32
  | _ => 0xFFFFFFFF#32

end Sys2Proof.Machine
end

