-- ==== Sys2Proof/Machine/HostProgram.lean ====
section
/-! DEFINITION. The spec's notation for host programs and its pseudo-instructions, as the bus events they stand for
(30_encoding.md R79 to R81). -/

namespace Sys2Proof.Machine

/-- One line of a host program (R79, R80). -/
inductive HostLine where
  | wr (r : Reg) (v : Word)
  | rd (r : Reg)
  | poll (r : Reg) (mask value : Word)
  | mem8 (a : Word) (bs : List Byte)
  | mem16 (a : Word) (cs : List Cell)
  | nopCmd
  | unpack12 (dst src nbytes : Word)
  | pack12 (dst src nsamples : Word)
  | debayer (dst src w h : Word) (cfa : CfaPattern)
  | wait
  | ack
deriving DecidableEq, Repr

/-- The bus address of a register, `BASE_ADDR + offset` (R79, R81). -/
def Reg.address (base : Word) (r : Reg) : Word := base + BitVec.ofNat 32 r.offset

/-- `wr REG, v` as a bus event (R79). -/
def wrEvent (base : Word) (r : Reg) (v : Word) : Event := .bus (.write (r.address base) (.word v))

/-- Host writes of values of `bytes` bytes each at consecutive addresses from `a` (R79). -/
def storeEvents (bytes : Nat) (a : Word) : List Datum → List Event
  | [] => []
  | d :: ds => .bus (.write a d) :: storeEvents bytes (a + BitVec.ofNat 32 bytes) ds

/-- The bus events of one line, for a block whose window is at `base` (R79, R80, R81). -/
def HostLine.events (base : Word) : HostLine → List Event
  | .wr r v => [wrEvent base r v]
  | .rd r => [.bus (.read (r.address base) .word)]
  | .poll r mask value => [.poll (r.address base) mask value]
  | .mem8 a bs => storeEvents 1 a (bs.map Datum.byte)
  | .mem16 a cs => storeEvents 2 a (cs.map Datum.cell)
  | .nopCmd => [wrEvent base .cmd 0x0#32, wrEvent base .ctrl 0x1#32]
  | .unpack12 dst src nbytes =>
    [wrEvent base .srcAddr src, wrEvent base .dstAddr dst, wrEvent base .len nbytes, wrEvent base .cmd 0x1#32,
      wrEvent base .ctrl 0x1#32]
  | .pack12 dst src nsamples =>
    [wrEvent base .srcAddr src, wrEvent base .dstAddr dst, wrEvent base .len nsamples, wrEvent base .cmd 0x2#32,
      wrEvent base .ctrl 0x1#32]
  | .debayer dst src w h cfa =>
    [wrEvent base .srcAddr src, wrEvent base .dstAddr dst, wrEvent base .width w, wrEvent base .height h,
      wrEvent base .cmd ((cfa.toBits.setWidth 32 <<< 4) ||| 0x3#32), wrEvent base .ctrl 0x1#32]
  | .wait => [.poll (Reg.status.address base) 0x1#32 0x0#32]
  | .ack => [wrEvent base .status 0xE#32]

/-- The bus events of a program, in order (R81). -/
def programEvents (base : Word) (p : List HostLine) : List Event := p.flatMap (HostLine.events base)

end Sys2Proof.Machine
end

