-- ==== Sys2Proof/WellFormed.lean ====
section
/-! DEFINITION. What is well formed: a command, a platform, a line of a host program. -/

namespace Sys2Proof

/-- A command is well formed. Every value of its one operand is legal and no word has a reserved bit set (R73, R76), so the
syntax admits only well-formed commands. -/
def Instr.wf : Instr → Bool
  | .nop => true
  | .unpack12 => true
  | .pack12 => true
  | .debayer _ => true

/-- The window of a port lies inside the address space (R22, R50). -/
def Port.inSpace (p : Port) : Bool := decide (p.base.toNat + windowBytes ≤ addressSpace)

/-- The windows of two ports share no byte: each block has its own window (R69, R159). -/
def Port.apart (p q : Port) : Bool :=
  decide (p.base.toNat + windowBytes ≤ q.base.toNat ∨ q.base.toNat + windowBytes ≤ p.base.toNat)

/-- A range of the address map lies inside the address space (R50). -/
def BusRange.inSpace (r : BusRange) : Bool := decide (r.base + r.size ≤ addressSpace)

/-- The ports of a platform, block 0 first. -/
def Platform.ports (p : Platform) : List Port := p.firstPort :: p.otherPorts

/-- A platform is well formed: its windows lie in the address space and share no byte, and its map lies in the address space
(R22, R50, R159). No meaning asks for it; it says which configurations a platform can have. -/
def Platform.wf (p : Platform) : Bool :=
  p.ports.all Port.inSpace && decide (p.ports.Pairwise fun a b => a.apart b) && p.busMap.all BusRange.inSpace

/-- A line of a host program is well formed: `mem16` starts at an even address, and neither `mem8` nor `mem16` passes the
top of the address space (R50, R79). -/
def Machine.HostLine.wf : Machine.HostLine → Bool
  | .mem8 a bs => decide (a.toNat + bs.length ≤ addressSpace)
  | .mem16 a cs => decide (a.toNat % 2 = 0 ∧ a.toNat + 2 * cs.length ≤ addressSpace)
  | .wr _ _ => true
  | .rd _ => true
  | .poll _ _ _ => true
  | .nopCmd => true
  | .unpack12 _ _ _ => true
  | .pack12 _ _ _ => true
  | .debayer _ _ _ _ _ => true
  | .wait => true
  | .ack => true

end Sys2Proof
end

