-- ==== Sys2Proof/Certificates/Slice0/Obligations.lean ====
section
/-! DEFINITION. The statements for the provers. Each docstring names the rule of spec/ it formalises, or says what it rests
on. "The focused block" is block 0. -/

open Sys2Proof Sys2Proof.Machine

/-! ### Encoding -/

/-- R72 and R73 (and R77, which the spec infers from them): a 32-bit value decodes, from bits 3:0 alone, to exactly one command, DEBAYER with the pattern that bits 5:4
number, or to a reserved opcode. -/
def Obligations.DecodeByOpcode : Prop :=
  ∀ w : Word,
    (w.extractLsb' 0 4 = 0#4 → decode w = .command .nop) ∧
    (w.extractLsb' 0 4 = 1#4 → decode w = .command .unpack12) ∧
    (w.extractLsb' 0 4 = 2#4 → decode w = .command .pack12) ∧
    (w.extractLsb' 0 4 = 3#4 →
      (w.extractLsb' 4 2 = 0#2 → decode w = .command (.debayer .rggb)) ∧
      (w.extractLsb' 4 2 = 1#2 → decode w = .command (.debayer .bggr)) ∧
      (w.extractLsb' 4 2 = 2#2 → decode w = .command (.debayer .grbg)) ∧
      (w.extractLsb' 4 2 = 3#2 → decode w = .command (.debayer .gbrg))) ∧
    (4 ≤ (w.extractLsb' 0 4).toNat → decode w = .illegal (w.extractLsb' 0 4))

/-- Decoding an encoded command gives the command back, whatever stands in the bits above its word's 6. Rests on R70, R72,
R73. -/
def Obligations.EncodeThenDecode : Prop :=
  ∀ (i : Instr) (junk : BitVec 26), i.wf = true → decode (junk ++ (encode i).extractLsb' 0 6) = .command i

/-- The words the spec's programs and vector G25 use decode to the commands it names (R81, 95_test_vectors.md G25). -/
def Obligations.SpecWordsDecode : Prop :=
  decodeTableWord 32 0x00000000 = some .nop ∧ decodeTableWord 32 0x00000001 = some .unpack12 ∧
    decodeTableWord 32 0x00000002 = some .pack12 ∧ decodeTableWord 32 0x00000003 = some (.debayer .rggb) ∧
    decodeTableWord 32 0x00000013 = some (.debayer .bggr) ∧ decodeTableWord 32 0x00000023 = some (.debayer .grbg) ∧
    decodeTableWord 32 0x00000033 = some (.debayer .gbrg) ∧ decodeTableWord 32 0x00000011 = some .unpack12 ∧
    decodeTableWord 32 0x00000022 = some .pack12 ∧ decodeTableWord 32 0x00000004 = none ∧
    decodeTableWord 32 0x0000000F = none

/-- R75: a reserved opcode is stored in CMD and reads back; no reserved opcode decodes to a command; a running command with
one ends with ILLEGAL_OP and touches no memory. -/
def Obligations.ReservedOpcode : Prop :=
  (∀ (b : Block) (v : BitVec 6), (b.writeReg .cmd (v.setWidth 32)).readReg .cmd = v.setWidth 32) ∧
  (∀ (w : Word) (i : Instr), 4 ≤ (w.extractLsb' 0 4).toNat → decode w ≠ .command i) ∧
  ∀ s : State, 4 ≤ s.blk.latched.op.toNat → ∃ t, s.completionStep = .next t ∧ s.failsUntouched t 3#4

/-- No latched command word has a bit above bit 5, and the CFA field of a NOP, UNPACK12 or PACK12 word selects
nothing (R76). -/
def Obligations.CfaIgnoredByOthers : Prop :=
  (∀ (l : Latched) (i : Nat), 6 ≤ i → l.commandWord.getLsbD i = false) ∧
  ∀ (op : BitVec 4) (c d : BitVec 2) (l : Latched), op.toNat < 3 →
    decode { l with op := op, cfa := c }.commandWord = decode { l with op := op, cfa := d }.commandWord

/-! ### The step -/

/-- A turn of an engine on the agenda runs the command that the latched word of its running block decodes to: block 0 in
place, block `k + 1` brought into focus and put back; a latched reserved opcode ends with ILLEGAL_OP and changes nothing else
(R30, R75, R90). Around `exec` a step only takes the event off the agenda. With an empty agenda it is block 0's command that
runs whenever block 0 is busy: that order is the model's choice (log entry 7). -/
def Obligations.StepRunsDecodedCommand : Prop :=
  (∀ (s : State) (rest : List Event), s.agenda = .engine 0 :: rest → s.blk.phase = .busy →
    (∀ i : Instr, decode s.blk.latched.commandWord = .command i → step s = exec i (s.setAgenda rest)) ∧
    ∀ op : BitVec 4, decode s.blk.latched.commandWord = .illegal op →
      step s = .next { s with
        agenda := rest
        blk := { s.blk with done := false, err := true, errCode := 3#4, outCount := 0#32, phase := .idle } }) ∧
  (∀ s : State, s.agenda = [] → s.blk.phase = .busy →
    (∀ i : Instr, decode s.blk.latched.commandWord = .command i → step s = exec i s) ∧
    ∀ op : BitVec 4, decode s.blk.latched.commandWord = .illegal op →
      step s = .next { s with
        blk := { s.blk with done := false, err := true, errCode := 3#4, outCount := 0#32, phase := .idle } }) ∧
  ∀ (s : State) (rest : List Event) (k : Nat) (b : Block), s.agenda = .engine (k + 1) :: rest →
    s.others[k]? = some b → b.phase = .busy →
    (∀ i : Instr, decode b.latched.commandWord = .command i →
      step s = mapNext (fun t => t.swap k) (exec i ((s.setAgenda rest).swap k))) ∧
    ∀ op : BitVec 4, decode b.latched.commandWord = .illegal op →
      step s = .next { s with
        agenda := rest
        others := s.others.set k
          { b with done := false, err := true, errCode := 3#4, outCount := 0#32, phase := .idle } }

/-- From any state, placing a command's word makes the very next step run exactly that command, on the parameter registers as
they stand (log entry 8). -/
def Obligations.PlacedWordRunsNext : Prop :=
  ∀ (s : State) (w : Word) (i : Instr), decode w = .command i →
    step (s.withFetchWord 32 w.toNat) = exec i (s.setBlk (s.blk.writeReg .cmd w).start)

/-- The engine has a step only in phase BUSY (R30, R161): with nothing on the agenda and no command running the machine
rests, and a turn given to an idle engine changes nothing but the agenda. -/
def Obligations.IdleEngineRests : Prop :=
  (∀ s : State, s.agenda = [] → (∀ b ∈ s.blocks, b.phase = .idle) → step s = .next s) ∧
  ∀ (s : State) (rest : List Event), s.agenda = .engine 0 :: rest → s.blk.phase = .idle →
    step s = .next (s.setAgenda rest)

/-- No command waits for anything (R91): the completion step of a running command ends it in phase IDLE, unless a region of
the command lies on a device, and that alone is refused (R59). -/
def Obligations.EveryCommandEnds : Prop :=
  ∀ s : State,
    (∃ t, s.completionStep = .next t ∧ t.blk.phase = .idle) ∨
      (s.completionStep = .refused .deviceRegion ∧ s.onDevice s.blk.latched.regions = true)

/-- Left alone, the machine completes one running command a step (R91, R182; the order, lowest block first, is the model's,
log entry 7). -/
def Obligations.UnattendedStepCompletesOne : Prop :=
  ∀ s t : State, s.agenda = [] → (∃ b ∈ s.blocks, b.phase = .busy) → step s = .next t →
    (t.blocks.filter Block.busy).length + 1 = (s.blocks.filter Block.busy).length ∧ t.agenda = []

/-! ### Reset -/

/-- The state right after reset, on any platform: every register of every block reads 0, no interrupt, no command running
(R39, R172; that memory lists nothing and the latched copies are 0 is the model's choice, log entries 1 and 3). -/
def Obligations.ResetStateReadsZero : Prop :=
  ∀ (p : Platform) (b : Block), b ∈ (State.resetOn p).blocks →
    (∀ r : Reg, b.readReg r = 0#32) ∧ b.irq = false ∧ b.phase = .idle

/-- A reset, in either phase, leaves every register 0, the phase IDLE and `irq` deasserted, with no DONE or
ERR for an abandoned command. Memory outside the destination of a running command is unchanged; each admitted byte of that
destination holds a free value, and its other bytes are unchanged. The latched copies are unspecified: nothing is said of
them (R39, R171). That a reset leaves no command to be observed is the model's choice (log entry 20). A reset of a command that was accessing a device is refused (log entry 5) and is not spoken of here. -/
def Obligations.ResetEffect : Prop :=
  ∀ (s : State) (rest : List Event), s.agenda = .reset 0 :: rest →
    (s.blk.phase = .busy → s.blk.latched.accesses = true → s.onDevice s.blk.latched.regions = false) →
    ∃ t, step s = .next t ∧ (∀ r : Reg, t.blk.readReg r = 0#32) ∧ t.blk.cmd = 0#6 ∧ t.blk.done = false ∧
      t.blk.err = false ∧ t.blk.goIgnored = false ∧ t.blk.errCode = 0#4 ∧ t.blk.phase = .idle ∧ t.blk.irq = false ∧
      t.blk.unobserved = [] ∧
      t.blk.port = s.blk.port ∧ t.others = s.others ∧ t.busMap = s.busMap ∧ t.lastRead = s.lastRead ∧
      t.agenda = rest ∧
      (s.blk.phase = .idle → t.mem = s.mem) ∧
      (s.blk.phase = .busy → ∀ a, Memory.read t.mem a =
        if s.blk.latched.regions.dst.has a && s.admits .write a then
          Config.freeByte (s.draws + (a - s.blk.latched.regions.dst.start))
        else Memory.read s.mem a)

/-! ### The register window -/

/-- A 32-bit host read at `BASE_ADDR + offset` of a register returns its value and changes no register; a read of STATUS that
returns BUSY = 0 observes the completion of the block's commands (R63; their list is the model's own field, log entry 20), and
no other read does. A 32-bit write to a register
other than CTRL changes that register as its access type says, at once and in either phase, and nothing else (R85, R94). -/
def Obligations.HostAccessesRegister : Prop :=
  ∀ (s : State) (rest : List Event) (r : Reg) (v : Word), s.blk.port.base.toNat + windowBytes ≤ addressSpace →
    (s.agenda = .bus (.read (r.address s.blk.port.base) .word) :: rest →
      step s = .next { s with
        agenda := rest
        lastRead := some (.word (s.blk.readReg r))
        blk := { s.blk with
          unobserved := if r = .status ∧ s.blk.phase = .idle then [] else s.blk.unobserved } }) ∧
    (r ≠ .ctrl → s.agenda = .bus (.write (r.address s.blk.port.base) (.word v)) :: rest →
      step s = .next ((s.setAgenda rest).setBlk (s.blk.writeReg r v)))

/-- Each block has its own window and registers (R159): on a platform whose windows lie in the address space and share no
byte, a host access at another block's window reads that block's register (one of STATUS with BUSY = 0 observes its commands,
R63, log entry 20), or writes it, or gives it GO, and changes nothing else. GO starts that block's command when it is idle (R87), sets its GO_IGNORED when it is busy (R88), and is refused when its
command would race with a running one of block 0 or of a third block (R69; that it is the GO that is refused is the model's
choice, log entry 13). The blocks beside block `k + 1` are `s.others.set k s.blk`. -/
def Obligations.HostReachesEveryBlock : Prop :=
  ∀ (s : State) (rest : List Event) (k : Nat) (b : Block), s.platform.wf = true → s.others[k]? = some b →
    (∀ r : Reg, s.agenda = .bus (.read (r.address b.port.base) .word) :: rest →
      step s = .next { s with
        agenda := rest
        lastRead := some (.word (b.readReg r))
        others := s.others.set k
          { b with unobserved := if r = .status ∧ b.phase = .idle then [] else b.unobserved } }) ∧
    (∀ (r : Reg) (v : Word), r ≠ .ctrl → s.agenda = .bus (.write (r.address b.port.base) (.word v)) :: rest →
      step s = .next { s with agenda := rest, others := s.others.set k (b.writeReg r v) }) ∧
    ∀ v : Word, s.agenda = .bus (.write (Reg.ctrl.address b.port.base) (.word v)) :: rest →
      (v.getLsbD 0 = false → step s = .next (s.setAgenda rest)) ∧
      (v.getLsbD 0 = true → b.phase = .busy →
        step s = .next { s with agenda := rest, others := s.others.set k { b with goIgnored := true } }) ∧
      (v.getLsbD 0 = true → b.phase = .idle →
        (∀ c ∈ s.others.set k s.blk, c.phase = .busy →
          b.parameters.regions.conflict c.latched.regions = false) →
        step s = .next { s with
          agenda := rest
          others := s.others.set k
            { b with
              latched := b.parameters, done := false, err := false, errCode := 0#4, outCount := 0#32
              phase := .busy, unobserved := b.parameters :: b.unobserved } }) ∧
      (v.getLsbD 0 = true → b.phase = .idle →
        (∃ c ∈ s.others.set k s.blk, c.phase = .busy ∧
          b.parameters.regions.conflict c.latched.regions = true) →
        step s = .refused .blockRace)

/-- R34: a read at an offset from 0x28 to 0x3C returns 0, and a write there has no effect. -/
def Obligations.UnmappedOffsets : Prop :=
  ∀ (s : State) (rest : List Event) (n : Nat) (v : Word), s.blk.port.base.toNat + windowBytes ≤ addressSpace →
    10 ≤ n → n < 16 →
    (s.agenda = .bus (.read (s.blk.port.base + BitVec.ofNat 32 (4 * n)) .word) :: rest →
      step s = .next ((s.setAgenda rest).setLastRead (.word 0#32))) ∧
    (s.agenda = .bus (.write (s.blk.port.base + BitVec.ofNat 32 (4 * n)) (.word v)) :: rest →
      step s = .next (s.setAgenda rest))

/-- An access that touches a block's window and is not 32 bits wide, or not at a multiple-of-4 offset in it, is refused; one
that touches no window changes no block (R86). For block 0 this needs no premise; for every block, the platform's windows lie
in the address space and share no byte. That an access which starts below a window and reaches into it is an access to that
window is the model's reading (log entry 14); the widths are those the model has (log entry 19). -/
def Obligations.WindowAccessWidth : Prop :=
  (∀ (s : State) (rest : List Event) (a : HostAccess) (b : Block), s.agenda = .bus a :: rest →
    b = s.blk ∨ (b ∈ s.others ∧ s.platform.wf = true) → b.window.overlaps a.region = true →
    (a.region.size ≠ 4 ∨ a.region.start < b.window.start ∨ (a.region.start - b.window.start) % 4 ≠ 0) →
    step s = .refused .windowAccess) ∧
  ∀ (s t : State) (rest : List Event) (a : HostAccess), s.agenda = .bus a :: rest →
    (∀ b ∈ s.blocks, b.window.overlaps a.region = false) → step s = .next t → t.blk = s.blk ∧ t.others = s.others

/-- R35: reserved bits of every register read as 0, and no value written to them changes anything. -/
def Obligations.ReservedBits : Prop :=
  ∀ (b : Block) (r : Reg),
    b.readReg r &&& ~~~(implementedBits r) = 0#32 ∧
      ∀ v w : Word, v &&& implementedBits r = w &&& implementedBits r → b.writeReg r v = b.writeReg r w

/-- The read-write registers read back what is written to their implemented bits, and a write to one changes no other
register's value (R23, R26 to R29; OUT_COUNT and CTRL hold nothing a host writes, R24, R32). -/
def Obligations.WritesReadBack : Prop :=
  ∀ (b : Block) (r : Reg) (v : Word), r ≠ .ctrl → r ≠ .status →
    (r ≠ .outCount → (b.writeReg r v).readReg r = v &&& implementedBits r) ∧
    (r = .outCount → b.writeReg r v = b) ∧
    (∀ q : Reg, q ≠ r → (b.writeReg r v).readReg q = b.readReg q) ∧
    b.readReg .ctrl = 0#32

/-- The fields of a read of STATUS (R25): BUSY is the phase (R30). -/
def Obligations.StatusFields : Prop :=
  ∀ b : Block,
    (b.readReg .status).getLsbD 0 = decide (b.phase = .busy) ∧ (b.readReg .status).getLsbD 1 = b.done ∧
    (b.readReg .status).getLsbD 2 = b.err ∧ (b.readReg .status).getLsbD 3 = b.goIgnored ∧
    (b.readReg .status).extractLsb' 4 4 = b.errCode ∧ (b.readReg .status).extractLsb' 8 24 = 0#24

/-- R93: what a host write to STATUS clears, that it does nothing else, and that while a command runs (in a consistent block)
it can only clear GO_IGNORED. -/
def Obligations.StatusWriteClears : Prop :=
  (∀ (b : Block) (v : Word),
    b.writeReg .status v =
      { b with
        done := if v.getLsbD 1 then false else b.done
        err := if v.getLsbD 2 then false else b.err
        errCode := if v.getLsbD 2 then 0#4 else b.errCode
        goIgnored := if v.getLsbD 3 then false else b.goIgnored }) ∧
  ∀ (b : Block) (v : Word), b.consistent → b.phase = .busy →
    b.writeReg .status v = { b with goIgnored := if v.getLsbD 3 then false else b.goIgnored }

/-- The interrupt is a level that follows STATUS and IRQ_EN at every moment (R33, R150, R151): after a write of the enables,
after a clearing write, after GO, after completion; GO_IGNORED is no source. -/
def Obligations.InterruptFollowsStatus : Prop :=
  ∀ (b : Block) (v : Word) (n : Nat) (e : ErrCode),
    (b.writeReg .irqEn v).irq = ((b.done && v.getLsbD 0) || (b.err && v.getLsbD 1)) ∧
    (b.writeReg .status v).irq =
      ((b.done && !v.getLsbD 1 && b.doneIe) || (b.err && !v.getLsbD 2 && b.errIe)) ∧
    b.start.irq = false ∧ (b.completeOk n).irq = b.doneIe ∧ (b.completeError e).irq = b.errIe ∧
    { b with goIgnored := !b.goIgnored }.irq = b.irq

/-! ### GO -/

/-- GO while idle (R87) latches the command word and the parameters, clears DONE, ERR, ERRCODE and OUT_COUNT, starts the
command and accesses no memory; all else, GO_IGNORED and IRQ_EN among it, is unchanged and `irq` is 0. The command joins
those whose completion the host has to observe (R176), a list that is the model's own field (log entry 20). Premise: the
command races with no running command of another block (R69); a GO that does is RacingGoIsRefused. -/
def Obligations.GoStartsCommand : Prop :=
  ∀ (s : State) (rest : List Event) (v : Word), s.blk.port.base.toNat + windowBytes ≤ addressSpace →
    s.agenda = .bus (.write (Reg.ctrl.address s.blk.port.base) (.word v)) :: rest → v.getLsbD 0 = true →
    s.blk.phase = .idle → (∀ b ∈ s.others, s.blk.start.keepsApart b) →
    ∃ (t : State) (l : Latched), step s = .next t ∧ t.mem = s.mem ∧ t.others = s.others ∧ t.busMap = s.busMap ∧
      t.lastRead = s.lastRead ∧ t.agenda = rest ∧ t.draws = s.draws ∧ t.blk.irq = false ∧
      (t.blk.readReg .status).getLsbD 0 = true ∧
      l =
        { op := (s.blk.readReg .cmd).extractLsb' 0 4, cfa := (s.blk.readReg .cmd).extractLsb' 4 2
          src := s.blk.readReg .srcAddr, dst := s.blk.readReg .dstAddr, len := s.blk.readReg .len
          w := s.blk.readReg .width, h := s.blk.readReg .height } ∧
      t.blk =
        { s.blk with
          latched := l, done := false, err := false, errCode := 0#4, outCount := 0#32, phase := .busy
          unobserved := l :: s.blk.unobserved }

/-- R88: GO while busy sets GO_IGNORED and changes nothing else; it raises no interrupt. GO_IGNORED then stays 1 through
every step but a host write to STATUS with bit 3 set, and a reset (R171). -/
def Obligations.GoWhileBusyIsIgnored : Prop :=
  (∀ (s : State) (rest : List Event) (v : Word), s.blk.port.base.toNat + windowBytes ≤ addressSpace →
    s.agenda = .bus (.write (Reg.ctrl.address s.blk.port.base) (.word v)) :: rest → v.getLsbD 0 = true →
    s.blk.phase = .busy →
    ∃ t, step s = .next t ∧ t = (s.setAgenda rest).setBlk { s.blk with goIgnored := true } ∧ t.blk.irq = s.blk.irq) ∧
  ∀ s t : State, s.blk.goIgnored = true → step s = .next t →
    t.blk.goIgnored = true ∨ (∃ rest, s.agenda = .reset 0 :: rest) ∨
      ∃ a v rest, s.agenda = .bus (.write a (.word v)) :: rest ∧ a.toNat = s.blk.port.base.toNat + 0x08 ∧
        v.getLsbD 3 = true

/-- R24: a write to CTRL with bit 0 clear has no effect, bits 31:1 are ignored, and every read of CTRL returns 0. -/
def Obligations.CtrlHoldsNothing : Prop :=
  (∀ (s : State) (rest : List Event) (v : Word), s.blk.port.base.toNat + windowBytes ≤ addressSpace →
    s.agenda = .bus (.write (Reg.ctrl.address s.blk.port.base) (.word v)) :: rest → v.getLsbD 0 = false →
    step s = .next (s.setAgenda rest)) ∧
  (∀ (b : Block) (v w : Word), v.getLsbD 0 = w.getLsbD 0 → b.writeReg .ctrl v = b.writeReg .ctrl w) ∧
  ∀ b : Block, b.readReg .ctrl = 0#32

/-- A GO that would run a command at once with another block's on overlapping regions is refused. R69 gives such a pair of
commands no meaning; that the step refused is the GO of the second is the model's choice (log entry 13), as is taking the
regions of R55 even where a check will fail (log entry 11). -/
def Obligations.RacingGoIsRefused : Prop :=
  ∀ (s : State) (rest : List Event) (v : Word) (b : Block), s.blk.port.base.toNat + windowBytes ≤ addressSpace →
    s.agenda = .bus (.write (Reg.ctrl.address s.blk.port.base) (.word v)) :: rest → v.getLsbD 0 = true →
    s.blk.phase = .idle → b ∈ s.others → b.phase = .busy →
    s.blk.parameters.regions.conflict b.latched.regions = true → step s = .refused .blockRace

/-- The running command reads only the latched copies (R31, R94): writing any register but CTRL and STATUS before its
completion step gives the step's own result with that register written. -/
def Obligations.RunningCommandIsIsolated : Prop :=
  ∀ (s : State) (i : Instr) (r : Reg) (v : Word), r ≠ .ctrl → r ≠ .status →
    exec i (s.setBlk (s.blk.writeReg r v)) = mapNext (fun t => t.setBlk (t.blk.writeReg r v)) (exec i s)

/-! ### What every command leaves alone -/

/-- The frame of all four commands (R55, R90): a completion step that answers a next state writes no register but DONE, ERR,
ERRCODE, OUT_COUNT and the phase, changes no other block, and writes no byte outside its destination region; the source
region of a command that passed its checks is never written. -/
def Obligations.CommandFrame : Prop :=
  ∀ (i : Instr) (s t : State), exec i s = .next t →
    s.blk.sameButOutcome t.blk ∧ s.sameAround t ∧
    Memory.agreeOutside s.mem t.mem (instrRegions s.blk.latched i).dst ∧
    ∀ a, (instrRegions s.blk.latched i).src.has a = true → Memory.read t.mem a = Memory.read s.mem a

/-- A command reads no byte outside its source region (R55, R128): two memories that agree there give the same outcome and,
where it is success, the same bytes in the destination region. -/
def Obligations.CommandReadsOnlySource : Prop :=
  ∀ (i : Instr) (s t : State) (m : Memory),
    (∀ a, (instrRegions s.blk.latched i).src.has a = true → Memory.read m a = Memory.read s.mem a) →
    exec i s = .next t →
    ∃ u, exec i (s.setMem m) = .next u ∧ u.blk = t.blk ∧
      (t.blk.done = true →
        ∀ a, (instrRegions s.blk.latched i).dst.has a = true → Memory.read u.mem a = Memory.read t.mem a)

/-! ### NOP -/

/-- R89: NOP, OP 0 with any CFA, completes from every state, whatever its parameters: DONE, OUT_COUNT 0, no check, no memory
access. -/
def Obligations.NopCompletes : Prop :=
  ∀ s : State,
    (∃ t, exec .nop s = .next t ∧ t.blk.showsOk 0 ∧ s.blk.sameButOutcome t.blk ∧ s.sameAround t ∧ t.mem = s.mem ∧
      t.draws = s.draws) ∧
    (s.blk.latched.op = 0#4 → s.completionStep = exec .nop s)

/-! ### UNPACK12 -/

/-- R100: with a whole number of groups, an even destination, both regions inside the address space, apart, ordinary memory
and admitted, UNPACK12 completes with two samples for each group, the two 12-bit values of the group's bytes in
little-endian cells (R52, R102), and changes no other byte. -/
def Obligations.Unpack12Completes : Prop :=
  ∀ (s : State) (l : Latched), s.blk.latched = l →
    l.len.toNat % 3 = 0 → l.dst.toNat % 2 = 0 → l.src.toNat + l.len.toNat ≤ addressSpace →
    l.dst.toNat + 4 * (l.len.toNat / 3) ≤ addressSpace → (unpackRegions l).src.overlaps (unpackRegions l).dst = false →
    s.onDevice (unpackRegions l) = false → s.admitsRegions (unpackRegions l) = true →
    ∃ t, exec .unpack12 s = .next t ∧ t.blk.showsOk (2 * (l.len.toNat / 3)) ∧ s.blk.sameButOutcome t.blk ∧
      s.sameAround t ∧ t.draws = s.draws ∧
      (∀ k b0 b1 b2, k < l.len.toNat / 3 → b0 = (Memory.read s.mem (l.src.toNat + 3 * k)).toNat →
        b1 = (Memory.read s.mem (l.src.toNat + 3 * k + 1)).toNat →
        b2 = (Memory.read s.mem (l.src.toNat + 3 * k + 2)).toNat →
        (Memory.readCell t.mem (l.dst.toNat + 4 * k)).toNat = (b0 <<< 4) ||| (b1 >>> 4) ∧
        (Memory.readCell t.mem (l.dst.toNat + 4 * k + 2)).toNat = ((b1 &&& 0x0F) <<< 8) ||| b2) ∧
      ∀ a, ¬(l.dst.toNat ≤ a ∧ a < l.dst.toNat + 4 * (l.len.toNat / 3)) → Memory.read t.mem a = Memory.read s.mem a

/-- The errors UNPACK12 meets before any memory access, in their order (R102, R142 to R144, R147): each leaves memory as it
was. -/
def Obligations.Unpack12Errors : Prop :=
  ∀ (s : State) (l : Latched), s.blk.latched = l →
    (l.len.toNat % 3 ≠ 0 → ∃ t, exec .unpack12 s = .next t ∧ s.failsUntouched t 1#4) ∧
    (l.len.toNat % 3 = 0 → l.dst.toNat % 2 = 1 → ∃ t, exec .unpack12 s = .next t ∧ s.failsUntouched t 4#4) ∧
    (l.len.toNat % 3 = 0 → l.dst.toNat % 2 = 0 →
      (l.src.toNat + l.len.toNat > addressSpace ∨ l.dst.toNat + 4 * (l.len.toNat / 3) > addressSpace) →
      ∃ t, exec .unpack12 s = .next t ∧ s.failsUntouched t 5#4) ∧
    (l.len.toNat % 3 = 0 → l.dst.toNat % 2 = 0 → l.src.toNat + l.len.toNat ≤ addressSpace →
      l.dst.toNat + 4 * (l.len.toNat / 3) ≤ addressSpace →
      0 < l.len.toNat → l.src.toNat < l.dst.toNat + 4 * (l.len.toNat / 3) → l.dst.toNat < l.src.toNat + l.len.toNat →
      ∃ t, exec .unpack12 s = .next t ∧ s.failsUntouched t 6#4)

/-! ### PACK12 -/

/-- R101: with an even count, an even source, both regions inside the address space, apart, ordinary memory and admitted, and
every cell at most 4095, PACK12 completes with three bytes for each pair of cells, and changes no other byte. -/
def Obligations.Pack12Completes : Prop :=
  ∀ (s : State) (l : Latched), s.blk.latched = l →
    l.len.toNat % 2 = 0 → l.src.toNat % 2 = 0 → l.src.toNat + 2 * l.len.toNat ≤ addressSpace →
    l.dst.toNat + 3 * (l.len.toNat / 2) ≤ addressSpace → (packRegions l).src.overlaps (packRegions l).dst = false →
    s.onDevice (packRegions l) = false → s.admitsRegions (packRegions l) = true →
    (∀ i, i < l.len.toNat → (Memory.readCell s.mem (l.src.toNat + 2 * i)).toNat ≤ 4095) →
    ∃ t, exec .pack12 s = .next t ∧ t.blk.showsOk (3 * (l.len.toNat / 2)) ∧ s.blk.sameButOutcome t.blk ∧
      s.sameAround t ∧ t.draws = s.draws ∧
      (∀ k s0 s1, k < l.len.toNat / 2 → s0 = (Memory.readCell s.mem (l.src.toNat + 4 * k)).toNat →
        s1 = (Memory.readCell s.mem (l.src.toNat + 4 * k + 2)).toNat →
        (Memory.read t.mem (l.dst.toNat + 3 * k)).toNat = s0 >>> 4 ∧
        (Memory.read t.mem (l.dst.toNat + 3 * k + 1)).toNat = ((s0 &&& 0xF) <<< 4) ||| (s1 >>> 8) ∧
        (Memory.read t.mem (l.dst.toNat + 3 * k + 2)).toNat = s1 &&& 0xFF) ∧
      ∀ a, ¬(l.dst.toNat ≤ a ∧ a < l.dst.toNat + 3 * (l.len.toNat / 2)) → Memory.read t.mem a = Memory.read s.mem a

/-- The errors PACK12 meets before any memory access, in their order (R106, R107, R142 to R144, R147): each leaves memory as
it was. -/
def Obligations.Pack12Errors : Prop :=
  ∀ (s : State) (l : Latched), s.blk.latched = l →
    (l.len.toNat % 2 = 1 → ∃ t, exec .pack12 s = .next t ∧ s.failsUntouched t 1#4) ∧
    (l.len.toNat % 2 = 0 → l.src.toNat % 2 = 1 → ∃ t, exec .pack12 s = .next t ∧ s.failsUntouched t 4#4) ∧
    (l.len.toNat % 2 = 0 → l.src.toNat % 2 = 0 →
      (l.src.toNat + 2 * l.len.toNat > addressSpace ∨ l.dst.toNat + 3 * (l.len.toNat / 2) > addressSpace) →
      ∃ t, exec .pack12 s = .next t ∧ s.failsUntouched t 5#4) ∧
    (l.len.toNat % 2 = 0 → l.src.toNat % 2 = 0 → l.src.toNat + 2 * l.len.toNat ≤ addressSpace →
      l.dst.toNat + 3 * (l.len.toNat / 2) ≤ addressSpace →
      0 < l.len.toNat → l.src.toNat < l.dst.toNat + 3 * (l.len.toNat / 2) →
      l.dst.toNat < l.src.toNat + 2 * l.len.toNat → ∃ t, exec .pack12 s = .next t ∧ s.failsUntouched t 6#4)

/-- PACK12 never drops the high bits of a cell (R108, R146, R148): with every byte admitted and some cell above 4095 it ends
with SAMPLE_RANGE, its destination bytes free and every other byte as before. -/
def Obligations.Pack12SampleRange : Prop :=
  ∀ (s : State) (l : Latched) (i : Nat), s.blk.latched = l → packCheck l = none → s.onDevice (packRegions l) = false →
    s.admitsRegions (packRegions l) = true → i < l.len.toNat →
    4096 ≤ (Memory.readCell s.mem (l.src.toNat + 2 * i)).toNat →
    ∃ t, exec .pack12 s = .next t ∧ t.blk.showsError 2#4 ∧ s.blk.sameButOutcome t.blk ∧ s.sameAround t ∧
      ∀ a, Memory.read t.mem a =
        if (packRegions l).dst.has a then Config.freeByte (s.draws + (a - l.dst.toNat)) else Memory.read s.mem a

/-- Where SAMPLE_RANGE and BUS_ERROR both apply to PACK12, the code is one of the two, and which is free (R147); the admitted
bytes of its destination are free, every other byte is as before (R148). -/
def Obligations.Pack12ErrorDraw : Prop :=
  ∀ (s : State) (l : Latched) (i : Nat), s.blk.latched = l → packCheck l = none → s.onDevice (packRegions l) = false →
    s.admitsRegions (packRegions l) = false → i < l.len.toNat → s.admits .read (l.src.toNat + 2 * i) = true →
    s.admits .read (l.src.toNat + 2 * i + 1) = true →
    4096 ≤ (Memory.readCell s.mem (l.src.toNat + 2 * i)).toNat →
    ∃ t, exec .pack12 s = .next t ∧ t.blk.showsError (if Config.freeChoice s.draws then 2#4 else 8#4) ∧
      s.blk.sameButOutcome t.blk ∧ s.sameAround t ∧
      ∀ a, Memory.read t.mem a =
        if (packRegions l).dst.has a && s.admits .write a then Config.freeByte (s.draws + (a - l.dst.toNat))
        else Memory.read s.mem a

/-! ### Errors that commands share -/

/-- BUS_ERROR (R146, R148): a command that passed its checks, to which SAMPLE_RANGE does not apply, and a byte of whose
regions the platform does not admit, ends with BUS_ERROR; the admitted bytes of its destination are free, every other byte
is as before. -/
def Obligations.BusError : Prop :=
  ∀ (s : State) (i : Instr), i ≠ .nop → instrCheck s.blk.latched i = none →
    (i = .pack12 → s.sampleTooLarge s.blk.latched = false) →
    s.onDevice (instrRegions s.blk.latched i) = false → s.admitsRegions (instrRegions s.blk.latched i) = false →
    ∃ t, exec i s = .next t ∧ t.blk.showsError 8#4 ∧ s.blk.sameButOutcome t.blk ∧ s.sameAround t ∧
      ∀ a, Memory.read t.mem a =
        if (instrRegions s.blk.latched i).dst.has a && s.admits .write a then
          Config.freeByte (s.draws + (a - (instrRegions s.blk.latched i).dst.start))
        else Memory.read s.mem a

/-- The engine never reaches its own register window (R51): no byte of it is admitted; a command one of whose regions, source
or destination, shares a byte with it never succeeds, and where it passed its checks ends with BUS_ERROR, or with SAMPLE_RANGE
where that applies to a PACK12 too (R147); and no command writes a byte of it. -/
def Obligations.OwnWindowIsNeverReached : Prop :=
  (∀ (s : State) (k : AccessKind) (a : Nat), s.blk.window.has a = true → s.admits k a = false) ∧
  ∀ (s t : State) (i : Instr), exec i s = .next t →
    ((instrRegions s.blk.latched i).src.overlaps s.blk.window = true ∨
        (instrRegions s.blk.latched i).dst.overlaps s.blk.window = true →
      t.blk.done = false ∧ t.blk.err = true ∧
      (instrCheck s.blk.latched i = none →
        t.blk.errCode = 8#4 ∨
          (i = .pack12 ∧ s.sampleTooLarge s.blk.latched = true ∧ t.blk.errCode = 2#4))) ∧
    ∀ a, s.blk.window.has a = true → Memory.read t.mem a = Memory.read s.mem a

/-- A command that passed its checks and one of whose admitted bytes lies on memory with side effects is refused, whichever
command it is but NOP, which touches nothing (R59; that the checks come first is the model's reading, log entry 5). -/
def Obligations.DeviceRegionIsRefused : Prop :=
  ∀ (s : State) (i : Instr), i ≠ .nop → instrCheck s.blk.latched i = none →
    s.onDevice (instrRegions s.blk.latched i) = true → exec i s = .refused .deviceRegion

/-- An UNPACK12 or PACK12 of length 0 succeeds with nothing written, wherever its source lies, as long as its cell region
starts at an even address (R104, R106, R143). -/
def Obligations.ZeroLengthCompletes : Prop :=
  ∀ (s : State) (l : Latched), s.blk.latched = l → l.len = 0#32 →
    (l.dst.toNat % 2 = 0 → ∃ t, exec .unpack12 s = .next t ∧ t.blk.showsOk 0 ∧ t.mem = s.mem) ∧
    (l.src.toNat % 2 = 0 → ∃ t, exec .pack12 s = .next t ∧ t.blk.showsOk 0 ∧ t.mem = s.mem)

/-- UNPACK12 and PACK12 do not depend on CFA, WIDTH or HEIGHT (R114, which the spec infers from R102 and R106). -/
def Obligations.CodecIgnoresGridParameters : Prop :=
  ∀ (s : State) (i : Instr) (c : BitVec 2) (w h : Word), i = .unpack12 ∨ i = .pack12 →
    exec i (s.setBlk { s.blk with latched := { s.blk.latched with cfa := c, w := w, h := h } }) =
      mapNext (fun t => t.setBlk { t.blk with latched := { t.blk.latched with cfa := c, w := w, h := h } }) (exec i s)

/-! ### Laws of the codec -/

/-- The codec's values fit, and its ORs are sums (R110, which the spec infers from R100 and R101). -/
def Obligations.CodecArithmetic : Prop :=
  (∀ b0 b1 b2 : Byte,
    (unpackFirst b0 b1).toNat = b0.toNat * 16 + b1.toNat / 16 ∧ (unpackFirst b0 b1).toNat ≤ 4095 ∧
    (unpackSecond b1 b2).toNat = b1.toNat % 16 * 256 + b2.toNat ∧ (unpackSecond b1 b2).toNat ≤ 4095) ∧
  ∀ s0 s1 : Cell, s0.toNat ≤ 4095 → s1.toNat ≤ 4095 →
    (packFirst s0).toNat = s0.toNat / 16 ∧ (packSecond s0 s1).toNat = s0.toNat % 16 * 16 + s1.toNat / 256 ∧
    (packThird s1).toNat = s1.toNat % 256

/-- R109: the round-trip laws of the block. (a) A PACK12 of the cells a successful UNPACK12 wrote succeeds and reproduces the
source bytes. (b) An UNPACK12 of the bytes a successful PACK12 wrote succeeds and reproduces the source cells. The second
command's regions pass its checks, are ordinary memory and admitted. -/
def Obligations.CodecRoundTrip : Prop :=
  (∀ s t u : State, exec .unpack12 s = .next t → t.blk.done = true → u.mem = t.mem →
    u.blk.latched.src = s.blk.latched.dst → u.blk.latched.len.toNat = 2 * (s.blk.latched.len.toNat / 3) →
    packCheck u.blk.latched = none → u.onDevice (packRegions u.blk.latched) = false →
    u.admitsRegions (packRegions u.blk.latched) = true →
    ∃ v, exec .pack12 u = .next v ∧ v.blk.showsOk s.blk.latched.len.toNat ∧
      ∀ j, j < s.blk.latched.len.toNat →
        Memory.read v.mem (u.blk.latched.dst.toNat + j) = Memory.read s.mem (s.blk.latched.src.toNat + j)) ∧
  ∀ s t u : State, exec .pack12 s = .next t → t.blk.done = true → u.mem = t.mem →
    u.blk.latched.src = s.blk.latched.dst → u.blk.latched.len.toNat = 3 * (s.blk.latched.len.toNat / 2) →
    unpackCheck u.blk.latched = none → u.onDevice (unpackRegions u.blk.latched) = false →
    u.admitsRegions (unpackRegions u.blk.latched) = true →
    ∃ v, exec .unpack12 u = .next v ∧ v.blk.showsOk s.blk.latched.len.toNat ∧
      ∀ j, j < s.blk.latched.len.toNat →
        Memory.readCell v.mem (u.blk.latched.dst.toNat + 2 * j) = Memory.readCell s.mem (s.blk.latched.src.toNat + 2 * j)

/-- A lane reads only its own source bytes and writes as many bytes as its place in the destination has, and the lanes may be
performed in any order (R111, which the spec infers from R102 and R106). -/
def Obligations.LaneOrderIsFree : Prop :=
  (∀ (m : Memory) (src k : Nat), (unpackLane m src k).length = 4 ∧ (packLane m src k).length = 3) ∧
  (∀ (m n : Memory) (src k : Nat), (∀ j, j < 3 → Memory.read m (src + 3 * k + j) = Memory.read n (src + 3 * k + j)) →
    unpackLane m src k = unpackLane n src k) ∧
  (∀ (m n : Memory) (src k : Nat), (∀ j, j < 4 → Memory.read m (src + 4 * k + j) = Memory.read n (src + 4 * k + j)) →
    packLane m src k = packLane n src k) ∧
  ∀ (m : Memory) (l : Latched) (ks : List Nat),
    (ks.Perm (List.range (l.len.toNat / 3)) →
      Memory.agree (unpackResult m l) (Memory.writeLanes m l.dst.toNat 4 (unpackLane m l.src.toNat) ks)) ∧
    (ks.Perm (List.range (l.len.toNat / 2)) →
      Memory.agree (packResult m l) (Memory.writeLanes m l.dst.toNat 3 (packLane m l.src.toNat) ks))

/-- The pseudocode's loops, which read memory as the earlier lanes left it, leave the memory that the model's meanings leave,
which read memory as it was at the start: a command's regions do not overlap (R102, R106, R125, R144; log entry 4). -/
def Obligations.LoopsReadAsTheyGo : Prop :=
  ∀ (m : Memory) (l : Latched) (c : CfaPattern),
    (unpackCheck l = none →
      Memory.agree (unpackResult m l)
        ((List.range (l.len.toNat / 3)).foldl
          (fun acc k => Memory.writeBytes acc (l.dst.toNat + 4 * k) (unpackLane acc l.src.toNat k)) m)) ∧
    (packCheck l = none →
      Memory.agree (packResult m l)
        ((List.range (l.len.toNat / 2)).foldl
          (fun acc k => Memory.writeBytes acc (l.dst.toNat + 3 * k) (packLane acc l.src.toNat k)) m)) ∧
    (debayerCheck l = none →
      Memory.agree (debayerResult m l c)
        ((List.range (l.w.toNat * l.h.toNat)).foldl
          (fun acc k =>
            Memory.writeBytes acc (l.dst.toNat + 6 * k) (debayerLane acc l.src.toNat c l.w.toNat l.h.toNat k)) m))

/-! ### DEBAYER -/

/-- R122 and R123: with a grid of at least 2 by 2, even addresses, both regions inside the address space, apart, ordinary memory and
admitted, DEBAYER completes with `W * H` pixels; the pixel of site `(x, y)` is the three cells R, G, B at
`DST + 6 * (y * W + x)`: the raw cell where the site has the colour, else the rounded mean of its neighbours of that colour
(R125). No other byte changes. -/
def Obligations.DebayerCompletes : Prop :=
  ∀ (s : State) (l : Latched) (cfa : CfaPattern) (W H : Nat), s.blk.latched = l → l.w.toNat = W → l.h.toNat = H →
    2 ≤ W → 2 ≤ H → l.src.toNat % 2 = 0 → l.dst.toNat % 2 = 0 → l.src.toNat + 2 * W * H ≤ addressSpace →
    l.dst.toNat + 6 * W * H ≤ addressSpace → (debayerRegions l).src.overlaps (debayerRegions l).dst = false →
    s.onDevice (debayerRegions l) = false → s.admitsRegions (debayerRegions l) = true →
    ∃ t, exec (.debayer cfa) s = .next t ∧ t.blk.showsOk (W * H) ∧ s.blk.sameButOutcome t.blk ∧ s.sameAround t ∧
      t.draws = s.draws ∧
      (∀ (raw : Nat → Nat → Nat) (val : Colour → Nat → Nat → Nat),
        (∀ x y, raw x y = (Memory.readCell s.mem (l.src.toNat + 2 * (y * W + x))).toNat) →
        (∀ c x y, val c x y =
          if colour cfa x y = c then raw x y
          else (2 * ((neighbours cfa W H c x y).map fun p => raw p.1 p.2).sum + (neighbours cfa W H c x y).length) /
            (2 * (neighbours cfa W H c x y).length)) →
        ∀ x y, x < W → y < H →
          (Memory.readCell t.mem (l.dst.toNat + 6 * (y * W + x))).toNat = val .r x y ∧
          (Memory.readCell t.mem (l.dst.toNat + 6 * (y * W + x) + 2)).toNat = val .g x y ∧
          (Memory.readCell t.mem (l.dst.toNat + 6 * (y * W + x) + 4)).toNat = val .b x y) ∧
      ∀ a, ¬(l.dst.toNat ≤ a ∧ a < l.dst.toNat + 6 * W * H) → Memory.read t.mem a = Memory.read s.mem a

/-- The errors DEBAYER meets before any memory access, in their order (R125, R128, R142 to R144, R147): each leaves memory as
it was. -/
def Obligations.DebayerErrors : Prop :=
  ∀ (s : State) (l : Latched) (cfa : CfaPattern) (W H : Nat), s.blk.latched = l → l.w.toNat = W → l.h.toNat = H →
    (W < 2 ∨ H < 2 → ∃ t, exec (.debayer cfa) s = .next t ∧ s.failsUntouched t 7#4) ∧
    (2 ≤ W → 2 ≤ H →
      (l.src.toNat % 2 = 1 ∨ l.dst.toNat % 2 = 1 → ∃ t, exec (.debayer cfa) s = .next t ∧ s.failsUntouched t 4#4) ∧
      (l.src.toNat % 2 = 0 → l.dst.toNat % 2 = 0 →
        (l.src.toNat + 2 * W * H > addressSpace ∨ l.dst.toNat + 6 * W * H > addressSpace →
          ∃ t, exec (.debayer cfa) s = .next t ∧ s.failsUntouched t 5#4) ∧
        (l.src.toNat + 2 * W * H ≤ addressSpace → l.dst.toNat + 6 * W * H ≤ addressSpace →
          l.src.toNat < l.dst.toNat + 6 * W * H → l.dst.toNat < l.src.toNat + 2 * W * H →
          ∃ t, exec (.debayer cfa) s = .next t ∧ s.failsUntouched t 6#4)))

/-- The colour of a site, by pattern and by the parity of its column and row, as the table of R121 has it. The spec marks its
reading of the four letters ("letters in row-major order over the top-left 2×2 tile") as general knowledge. -/
def Obligations.ColourOfSite : Prop :=
  ∀ i j : Nat,
    (colour .rggb (2 * i) (2 * j) = .r ∧ colour .rggb (2 * i + 1) (2 * j) = .g ∧
      colour .rggb (2 * i) (2 * j + 1) = .g ∧ colour .rggb (2 * i + 1) (2 * j + 1) = .b) ∧
    (colour .bggr (2 * i) (2 * j) = .b ∧ colour .bggr (2 * i + 1) (2 * j) = .g ∧
      colour .bggr (2 * i) (2 * j + 1) = .g ∧ colour .bggr (2 * i + 1) (2 * j + 1) = .r) ∧
    (colour .grbg (2 * i) (2 * j) = .g ∧ colour .grbg (2 * i + 1) (2 * j) = .r ∧
      colour .grbg (2 * i) (2 * j + 1) = .b ∧ colour .grbg (2 * i + 1) (2 * j + 1) = .g) ∧
    (colour .gbrg (2 * i) (2 * j) = .g ∧ colour .gbrg (2 * i + 1) (2 * j) = .b ∧
      colour .gbrg (2 * i) (2 * j + 1) = .r ∧ colour .gbrg (2 * i + 1) (2 * j + 1) = .g)

/-- R124: the neighbourhood of a site for a colour is the set of adjacent sites of that colour inside the grid, each once. -/
def Obligations.NeighbourSet : Prop :=
  ∀ (cfa : CfaPattern) (W H : Nat) (c : Colour) (x y : Nat),
    (neighbours cfa W H c x y).Nodup ∧
    ∀ x' y' : Nat, (x', y') ∈ neighbours cfa W H c x y ↔
      |(x' : ℤ) - x| ≤ 1 ∧ |(y' : ℤ) - y| ≤ 1 ∧ (x', y') ≠ (x, y) ∧ x' < W ∧ y' < H ∧ colour cfa x' y' = c

/-- A site of a grid at least 2 by 2 has from 1 to 4 neighbours of each colour it does not carry, so no division is by zero; an
interior site has 2 of red and of blue at a green site, and 4 otherwise; one on the border at most 3 (R127, which the spec
infers from R121 and R124). -/
def Obligations.NeighbourCount : Prop :=
  ∀ (cfa : CfaPattern) (W H : Nat) (c : Colour) (x y : Nat), 2 ≤ W → 2 ≤ H → x < W → y < H → colour cfa x y ≠ c →
    1 ≤ (neighbours cfa W H c x y).length ∧ (neighbours cfa W H c x y).length ≤ 4 ∧
    (1 ≤ x → x + 1 < W → 1 ≤ y → y + 1 < H →
      (neighbours cfa W H c x y).length = if colour cfa x y = .g then 2 else 4) ∧
    (x = 0 ∨ x + 1 = W ∨ y = 0 ∨ y + 1 = H → (neighbours cfa W H c x y).length ≤ 3)

/-- R126: the mean is rounded to the nearest integer, halves up; of three values no exact half occurs; it lies between the
smallest and the largest value. -/
def Obligations.MeanRounding : Prop :=
  (∀ total n : Nat, 0 < n → (roundedMean total n : ℤ) = ⌊(total : ℚ) / n + 1 / 2⌋) ∧
  (∀ total q : Nat, (total : ℚ) / 3 ≠ q + 1 / 2) ∧
  ∀ (vs : List Nat) (lo hi : Nat), vs ≠ [] → (∀ v ∈ vs, lo ≤ v ∧ v ≤ hi) →
    lo ≤ roundedMean vs.sum vs.length ∧ roundedMean vs.sum vs.length ≤ hi

/-- At an interior site the channels are those of bilinear demosaicing (R130, which the spec infers from R121 and R124). -/
def Obligations.InteriorIsBilinear : Prop :=
  ∀ (m : Memory) (src : Nat) (cfa : CfaPattern) (W H x y : Nat) (raw : Nat → Nat → Nat),
    (∀ i j, raw i j = (rawCell m src W i j).toNat) → x + 2 < W → y + 2 < H →
    (colour cfa (x + 1) (y + 1) ≠ .g →
      (channel m src cfa W H .g (x + 1) (y + 1)).toNat =
        (2 * (raw (x + 1) y + raw x (y + 1) + raw (x + 2) (y + 1) + raw (x + 1) (y + 2)) + 4) / 8) ∧
    (∀ c, c = .r ∧ colour cfa (x + 1) (y + 1) = .b ∨ c = .b ∧ colour cfa (x + 1) (y + 1) = .r →
      (channel m src cfa W H c (x + 1) (y + 1)).toNat =
        (2 * (raw x y + raw (x + 2) y + raw x (y + 2) + raw (x + 2) (y + 2)) + 4) / 8) ∧
    (colour cfa (x + 1) (y + 1) = .g →
      (channel m src cfa W H (colour cfa x (y + 1)) (x + 1) (y + 1)).toNat =
        (2 * (raw x (y + 1) + raw (x + 2) (y + 1)) + 2) / 4 ∧
      (channel m src cfa W H (colour cfa (x + 1) y) (x + 1) (y + 1)).toNat =
        (2 * (raw (x + 1) y + raw (x + 1) (y + 2)) + 2) / 4)

/-! ### Memory and the host -/

/-- R52: a cell is little-endian, read and written. -/
def Obligations.CellsAreLittleEndian : Prop :=
  ∀ (m : Memory) (a : Nat) (v : Cell),
    (Memory.readCell m a).toNat = (Memory.read m (a + 1)).toNat * 256 + (Memory.read m a).toNat ∧
    Memory.read (Memory.writeBytes m a (cellBytes v)) a = v.extractLsb' 0 8 ∧
    Memory.read (Memory.writeBytes m a (cellBytes v)) (a + 1) = v.extractLsb' 8 8 ∧
    Memory.readCell (Memory.writeBytes m a (cellBytes v)) a = v ∧
    ∀ x, x ≠ a → x ≠ a + 1 → Memory.read (Memory.writeBytes m a (cellBytes v)) x = Memory.read m x

/-- A host access to memory outside every window, inside the address space, admitted, on no device, and racing with no command
that is running or whose completion the host has not observed, reads the bytes there or stores its own, in either phase, and changes nothing else (R61, R79, R176). That the
bytes of a 32-bit access are little-endian is the model's choice (log entry 6), and so is that an access of 16 or 32 bits may
start at any address (log entry 17). -/
def Obligations.HostAccessesMemory : Prop :=
  ∀ (s : State) (rest : List Event) (a : HostAccess), s.agenda = .bus a :: rest →
    (∀ b ∈ s.blocks, b.window.overlaps a.region = false) → a.region.start + a.region.size ≤ addressSpace →
    (∀ x, a.region.has x = true → busAdmits s.busMap a.kind x = true ∧ busDevice s.busMap x = false) →
    (∀ b ∈ s.blocks, ∀ l : Latched, (b.phase = .busy ∧ l = b.latched) ∨ l ∈ b.unobserved → ∀ x, a.region.has x = true →
      l.regions.dst.has x = false ∧ (a.kind = .write → l.regions.src.has x = false)) →
    (∀ addr w, a = .read addr w → step s = .next ((s.setAgenda rest).setLastRead (Memory.readDatum s.mem addr.toNat w))) ∧
    ∀ addr d, a = .write addr d → ∃ t, step s = .next t ∧ t.blk = s.blk ∧ t.others = s.others ∧ t.busMap = s.busMap ∧
      t.lastRead = s.lastRead ∧ t.agenda = rest ∧ t.draws = s.draws ∧ Memory.readDatum t.mem addr.toNat d.width = d ∧
      Memory.agreeOutside s.mem t.mem a.region

/-- While a command runs (R61), and from its GO until the host has observed its completion (R176), a host write to its source
region, or any host access to its destination region, is refused, where the access itself is one the platform admits (that a
byte it does not admit comes first is the model's choice, log entry 18; how the model knows what the host has observed is log
entry 20). -/
def Obligations.HostRaceIsRefused : Prop :=
  ∀ (s : State) (rest : List Event) (a : HostAccess) (b : Block) (l : Latched) (x : Nat), s.agenda = .bus a :: rest →
    (∀ c ∈ s.blocks, c.window.overlaps a.region = false) → a.region.start + a.region.size ≤ addressSpace →
    (∀ y, a.region.has y = true → busAdmits s.busMap a.kind y = true ∧ busDevice s.busMap y = false) →
    b ∈ s.blocks → (b.phase = .busy ∧ l = b.latched) ∨ l ∈ b.unobserved → a.region.has x = true →
    (l.regions.dst.has x = true ∨ (a.kind = .write ∧ l.regions.src.has x = true)) →
    step s = .refused .hostRace

/-- A host that polls STATUS for BUSY = 0 goes on once the focused block is idle, and has then observed its completion (R63, log
entry 20); while it is busy the host looks again after every engine had a turn (R79, R80; the turns between two looks are the model's
choice, log entry 7). -/
def Obligations.WaitEndsWhenIdle : Prop :=
  ∀ (s : State) (rest : List Event), s.blk.port.base.toNat + windowBytes ≤ addressSpace →
    s.agenda = .poll (Reg.status.address s.blk.port.base) 1#32 0#32 :: rest →
    (s.blk.phase = .idle →
      step s = .next { s with
        agenda := rest
        lastRead := some (.word (s.blk.readReg .status))
        blk := { s.blk with unobserved := [] } }) ∧
    (s.blk.phase = .busy →
      step s = .next ((s.setAgenda (s.allTurns ++ s.agenda)).setLastRead (.word (s.blk.readReg .status))))

/-- An interrupt line is asserted while some block routed to it has an enabled pending source (R9, R33, R150; that a line
shared by blocks is the OR of them is the model's choice, log entry 16). A host that waits for a line goes on once it is
asserted, and has then observed the completion of the idle blocks that assert it and changed nothing else. R63 says so of the
command that raised the interrupt; that it closes every earlier command of the block too is the model's inference, and the
list of those commands its own field (log entry 20). While the line is not asserted, the host looks again after every engine
had a turn (the turns are the model's choice, log entry 7). -/
def Obligations.InterruptLineIsLevel : Prop :=
  ∀ (s : State) (rest : List Event) (line : Nat),
    (s.irqLine line = true ↔ ∃ b ∈ s.blocks, b.port.irqRoute = line ∧
      (b.done = true ∧ b.doneIe = true ∨ b.err = true ∧ b.errIe = true)) ∧
    (s.agenda = .takeIrq line :: rest →
      (s.irqLine line = true → ∀ f : Block → Block,
        (∀ b, f b = { b with
          unobserved :=
            if b.port.irqRoute = line ∧ b.irq = true ∧ b.phase = .idle then [] else b.unobserved }) →
        step s = .next { s with agenda := rest, blk := f s.blk, others := s.others.map f }) ∧
      (s.irqLine line = false → step s = .next (s.setAgenda (s.allTurns ++ s.agenda))))

/-! ### Invariants -/

/-- The invariant holds right after reset, on any platform (R39). -/
def Obligations.InvariantAtReset : Prop := ∀ p : Platform, (State.resetOn p).Inv

/-- Every step keeps the invariant: memory in its one form, STATUS consistent in every block (DONE and ERR never both 1,
ERRCODE a code of the table exactly while ERR is 1, OUT_COUNT 0 after an error and while a command runs: R25, R32, R87, R90,
R141; that DONE and ERR are never both 1 the spec infers from R30 and R87), a running command among those the host has yet
to observe (R176, log entry 20), and no two running commands on racing regions
(R69). -/
def Obligations.StepKeepsInvariant : Prop := ∀ s t : State, s.Inv → step s = .next t → t.Inv

/-- Nothing changes the configuration: the windows, the interrupt routes, the number of blocks and the address map (R9,
R10). -/
def Obligations.StepKeepsConfiguration : Prop := ∀ s t : State, step s = .next t → t.platform = s.platform

/-- Blocks share only memory (R69, R159): an engine's turn or a reset of another block changes no state of the focused block,
nor of a third one. -/
def Obligations.BlocksAreIndependent : Prop :=
  ∀ (s t : State) (rest : List Event) (k : Nat), s.agenda = .engine (k + 1) :: rest ∨ s.agenda = .reset (k + 1) :: rest →
    step s = .next t → t.blk = s.blk ∧ ∀ j, j ≠ k → t.others[j]? = s.others[j]?
end

