-- ==== Sys2Proof/Laws/Memory.lean ====
section
/-! SUPPORT. What the memory operations do, byte by byte, and that each keeps the one form a memory has. -/

namespace Sys2Proof.Machine

theorem Memory.read_filter_ne (m : Memory) (a x : Nat) :
    Memory.read (m.filter fun c => c.1 != a) x = if x = a then unlistedByte else Memory.read m x := by
  induction m with
  | nil => simp [Memory.read]
  | cons c m ih =>
    by_cases hc : c.1 = a
    · simp only [List.filter_cons, hc, bne_self_eq_false, Bool.false_eq_true, if_false, ih, Memory.read]
      by_cases hx : x = a
      · simp [hx]
      · simp [hx, Ne.symm hx]
    · have h1 : (c.1 != a) = true := by simpa using hc
      simp only [List.filter_cons, h1, if_true, Memory.read, ih]
      by_cases hx : x = a
      · subst hx; simp [hc]
      · simp [hx]

theorem Memory.read_place (m : Memory) (a : Nat) (v : Byte) (h : ∀ c ∈ m, c.1 ≠ a) (x : Nat) :
    Memory.read (Memory.place m a v) x = if x = a then v else Memory.read m x := by
  induction m with
  | nil =>
    simp only [Memory.place, Memory.read]
    by_cases hx : x = a
    · simp [hx]
    · simp [hx, Ne.symm hx]
  | cons c m ih =>
    have hc : c.1 ≠ a := h c (by simp)
    have ih := ih fun d hd => h d (by simp [hd])
    simp only [Memory.place]
    split
    · simp only [Memory.read]
      by_cases hx : x = a
      · simp [hx]
      · simp [hx, Ne.symm hx]
    · simp only [Memory.read, ih]
      by_cases hx : x = a
      · subst hx; simp [hc]
      · simp [hx]

/-- A read after a write: the value at the address written, every other byte as before. -/
theorem Memory.read_write (m : Memory) (a : Nat) (v : Byte) (x : Nat) :
    Memory.read (Memory.write m a v) x = if x = a then v else Memory.read m x := by
  unfold Memory.write
  split
  · next h => rw [Memory.read_filter_ne, h]
  · rw [Memory.read_place _ _ _ (by intro c hc; simpa using (List.mem_filter.mp hc).2), Memory.read_filter_ne]
    by_cases hx : x = a <;> simp [hx]

theorem Memory.read_writeBytes (vs : List Byte) (m : Memory) (a x : Nat) :
    Memory.read (Memory.writeBytes m a vs) x =
      if a ≤ x ∧ x < a + vs.length then vs.getD (x - a) unlistedByte else Memory.read m x := by
  induction vs generalizing m a with
  | nil =>
    have : ¬(a ≤ x ∧ x < a + ([] : List Byte).length) := by simp only [List.length_nil]; omega
    rw [if_neg this]; rfl
  | cons v vs ih =>
    simp only [Memory.writeBytes, ih, Memory.read_write, List.length_cons]
    by_cases hx : x = a
    · subst hx
      simp
    · by_cases h : a + 1 ≤ x ∧ x < a + 1 + vs.length
      · have h2 : a ≤ x ∧ x < a + (vs.length + 1) := by omega
        have h3 : x - a = (x - (a + 1)) + 1 := by omega
        rw [if_pos h, if_pos h2, h3, List.getD_cons_succ]
      · have h2 : ¬(a ≤ x ∧ x < a + (vs.length + 1)) := by omega
        rw [if_neg h, if_neg h2, if_neg hx]

/-- A byte that no lane's bytes cover is as before. -/
theorem Memory.read_writeLanes_outside (m : Memory) (dst stride : Nat) (lane : Nat → List Byte) (ks : List Nat) (x : Nat)
    (h : ∀ k ∈ ks, ¬(dst + stride * k ≤ x ∧ x < dst + stride * k + (lane k).length)) :
    Memory.read (Memory.writeLanes m dst stride lane ks) x = Memory.read m x := by
  unfold Memory.writeLanes
  induction ks generalizing m with
  | nil => rfl
  | cons k ks ih =>
    rw [List.foldl_cons, ih _ fun j hj => h j (by simp [hj]), Memory.read_writeBytes, if_neg (h k (by simp))]

/-- Lanes of `stride` bytes do not meet: after all lanes of `ks`, byte `j` of lane `k` is the one the lane gave. -/
theorem Memory.read_writeLanes_lane (m : Memory) (dst stride : Nat) (lane : Nat → List Byte) (ks : List Nat)
    (hl : ∀ k ∈ ks, (lane k).length = stride) (k j : Nat) (hk : k ∈ ks) (hj : j < stride) :
    Memory.read (Memory.writeLanes m dst stride lane ks) (dst + stride * k + j) = (lane k).getD j unlistedByte := by
  induction ks generalizing m with
  | nil => cases hk
  | cons i ks ih =>
    have step : Memory.writeLanes m dst stride lane (i :: ks) =
        Memory.writeLanes (Memory.writeBytes m (dst + stride * i) (lane i)) dst stride lane ks := rfl
    rw [step]
    by_cases hm : k ∈ ks
    · exact ih _ (fun k' hk' => hl k' (by simp [hk'])) hm
    · have hki : k = i := by simpa [hm] using hk
      subst hki
      have hlen := hl k (by simp)
      rw [Memory.read_writeLanes_outside, Memory.read_writeBytes, if_pos (by omega)]
      · congr 1; omega
      · intro k' hk' hin
        have hne : k' ≠ k := fun e => hm (e ▸ hk')
        rw [hl k' (by simp [hk'])] at hin
        rcases Nat.lt_or_gt_of_ne hne with h | h
        · have := Nat.mul_le_mul_left stride (show k' + 1 ≤ k from h)
          rw [Nat.mul_add, Nat.mul_one] at this; omega
        · have := Nat.mul_le_mul_left stride (show k + 1 ≤ k' from h)
          rw [Nat.mul_add, Nat.mul_one] at this; omega

/-- Lanes 0 to n - 1 of `stride` bytes each: what every byte of memory reads afterwards. -/
theorem Memory.read_writeLanes (m : Memory) (dst stride n : Nat) (lane : Nat → List Byte)
    (hl : ∀ k, k < n → (lane k).length = stride) (x : Nat) :
    Memory.read (Memory.writeLanes m dst stride lane (List.range n)) x =
      if dst ≤ x ∧ x < dst + stride * n then (lane ((x - dst) / stride)).getD ((x - dst) % stride) unlistedByte
      else Memory.read m x := by
  split
  · next h =>
    have hs : 0 < stride := by
      rcases Nat.eq_zero_or_pos stride with h0 | h0
      · subst h0; omega
      · exact h0
    have hq : (x - dst) / stride < n := by
      rw [Nat.div_lt_iff_lt_mul hs, Nat.mul_comm]; omega
    have hx : x = dst + stride * ((x - dst) / stride) + (x - dst) % stride := by
      have := Nat.div_add_mod (x - dst) stride; omega
    conv => lhs; rw [hx]
    exact Memory.read_writeLanes_lane m dst stride lane _ (fun k hk => hl k (List.mem_range.mp hk)) _ _
      (List.mem_range.mpr hq) (Nat.mod_lt _ hs)
  · next h =>
    refine Memory.read_writeLanes_outside m dst stride lane _ x fun k hk hin => h ?_
    have hk := List.mem_range.mp hk
    rw [hl k hk] at hin
    have := Nat.mul_le_mul_left stride (show k + 1 ≤ n from hk)
    rw [Nat.mul_add, Nat.mul_one] at this; omega

/-- A region whose admitted bytes took free values: what every byte reads afterwards. -/
theorem Memory.read_scramble (m : Memory) (r : Region) (admits : Nat → Bool) (draws x : Nat) :
    Memory.read (Memory.scramble m r admits draws) x =
      if (r.has x && admits x) = true then Config.freeByte (draws + (x - r.start)) else Memory.read m x := by
  have key : ∀ n, Memory.read ((List.range n).foldl (fun acc i =>
      if admits (r.start + i) then Memory.write acc (r.start + i) (Config.freeByte (draws + i)) else acc) m) x =
      if (decide (r.start ≤ x ∧ x < r.start + n) && admits x) = true then Config.freeByte (draws + (x - r.start))
      else Memory.read m x := by
    intro n
    induction n with
    | zero =>
      simp
    | succ n ih =>
      rw [List.range_succ, List.foldl_append, List.foldl_cons, List.foldl_nil]
      by_cases hx : x = r.start + n
      · subst hx
        have h0 : ¬(r.start ≤ r.start + n ∧ r.start + n < r.start + n) := by omega
        have h1 : r.start ≤ r.start + n ∧ r.start + n < r.start + (n + 1) := by omega
        cases ha : admits (r.start + n) <;> simp [ha, ih, Memory.read_write]
      · have h1 : (r.start ≤ x ∧ x < r.start + (n + 1)) ↔ (r.start ≤ x ∧ x < r.start + n) := by omega
        rw [decide_eq_decide.mpr h1, ← ih]
        split
        · rw [Memory.read_write, if_neg hx]
        · rfl
  exact key r.size

theorem Memory.mem_place {m : Memory} {a : Nat} {v : Byte} {c : Host.Cell} :
    c ∈ Memory.place m a v ↔ c = (a, v) ∨ c ∈ m := by
  induction m with
  | nil => simp [Memory.place]
  | cons d m ih =>
    simp only [Memory.place]
    split
    · simp
    · simp only [List.mem_cons, ih]; tauto

theorem Memory.wf_nil : Memory.wf [] := ⟨List.Pairwise.nil, by simp⟩

theorem Memory.wf_filter {m : Memory} (h : Memory.wf m) (p : Host.Cell → Bool) : Memory.wf (m.filter p) :=
  ⟨h.1.sublist List.filter_sublist, fun c hc => h.2 c (List.mem_filter.mp hc).1⟩

theorem Memory.wf_place {m : Memory} {a : Nat} {v : Byte} (h : Memory.wf m) (ha : a < addressSpace)
    (hv : v ≠ unlistedByte) (hm : ∀ c ∈ m, c.1 ≠ a) : Memory.wf (Memory.place m a v) := by
  refine ⟨?_, fun c hc => ?_⟩
  · have hp := h.1
    clear h
    induction m with
    | nil => simp [Memory.place]
    | cons d m ih =>
      have hd := List.pairwise_cons.mp hp
      simp only [Memory.place]
      split
      · next hlt =>
        refine List.pairwise_cons.mpr ⟨fun c hc => ?_, hp⟩
        rcases List.mem_cons.mp hc with rfl | hc
        · exact hlt
        · exact Nat.lt_trans hlt (hd.1 c hc)
      · next hlt =>
        refine List.pairwise_cons.mpr ⟨fun c hc => ?_, ih (fun c hc => hm c (by simp [hc])) hd.2⟩
        rcases Memory.mem_place.mp hc with rfl | hc
        · have := hm d (by simp); simp only; omega
        · exact hd.1 c hc
  · rcases Memory.mem_place.mp hc with rfl | hc
    · exact ⟨ha, hv⟩
    · exact h.2 c hc

/-- A write inside the address space keeps the form. -/
theorem Memory.wf_write {m : Memory} {a : Nat} (h : Memory.wf m) (ha : a < addressSpace) (v : Byte) :
    Memory.wf (Memory.write m a v) := by
  unfold Memory.write
  split
  · exact Memory.wf_filter h _
  · next hv =>
    exact Memory.wf_place (Memory.wf_filter h _) ha hv fun c hc => by simpa using (List.mem_filter.mp hc).2

theorem Memory.wf_writeBytes {vs : List Byte} {m : Memory} {a : Nat} (h : Memory.wf m)
    (ha : a + vs.length ≤ addressSpace) : Memory.wf (Memory.writeBytes m a vs) := by
  induction vs generalizing m a with
  | nil => exact h
  | cons v vs ih =>
    simp only [List.length_cons] at ha
    exact ih (Memory.wf_write h (by omega) v) (by omega)

/-- Lanes that end inside the address space keep the form. -/
theorem Memory.wf_writeLanes {m : Memory} {dst stride : Nat} {lane : Nat → List Byte} {ks : List Nat} (h : Memory.wf m)
    (ha : ∀ k ∈ ks, dst + stride * k + (lane k).length ≤ addressSpace) :
    Memory.wf (Memory.writeLanes m dst stride lane ks) := by
  unfold Memory.writeLanes
  induction ks generalizing m with
  | nil => exact h
  | cons k ks ih => exact ih (Memory.wf_writeBytes h (ha k (by simp))) fun j hj => ha j (by simp [hj])

/-- Free values for admitted bytes keep the form, where only bytes of the address space are admitted. -/
theorem Memory.wf_scramble {m : Memory} (r : Region) {admits : Nat → Bool} (draws : Nat) (h : Memory.wf m)
    (ha : ∀ a, admits a = true → a < addressSpace) : Memory.wf (Memory.scramble m r admits draws) := by
  unfold Memory.scramble
  induction List.range r.size generalizing m with
  | nil => exact h
  | cons i is ih =>
    rw [List.foldl_cons]
    refine ih ?_
    split
    · next hi => exact Memory.wf_write h (ha _ hi) _
    · exact h

theorem Memory.read_of_not_mem {m : Memory} {a : Nat} (h : ∀ c ∈ m, c.1 ≠ a) : Memory.read m a = unlistedByte := by
  induction m with
  | nil => rfl
  | cons c m ih =>
    rw [Memory.read, if_neg (h c (by simp)), ih fun d hd => h d (by simp [hd])]

/-- Memories of the one form that read alike are equal data. -/
theorem Memory.eq_of_agree {m n : Memory} (hm : Memory.wf m) (hn : Memory.wf n)
    (h : ∀ a, Memory.read m a = Memory.read n a) : m = n := by
  have above : ∀ {c : Host.Cell} {l : Memory}, Memory.wf (c :: l) → ∀ a, a ≤ c.1 → Memory.read l a = unlistedByte :=
    fun hw a ha => Memory.read_of_not_mem fun d hd => by
      have := (List.pairwise_cons.mp hw.1).1 d hd; omega
  induction m generalizing n with
  | nil =>
    cases n with
    | nil => rfl
    | cons c n =>
      have := h c.1
      simp only [Memory.read, if_true] at this
      exact absurd this.symm (hn.2 c (by simp)).2
  | cons c m ih =>
    cases n with
    | nil =>
      have := h c.1
      simp only [Memory.read, if_true] at this
      exact absurd this (hm.2 c (by simp)).2
    | cons d n =>
      have hc := (hm.2 c (by simp)).2
      have hd := (hn.2 d (by simp)).2
      have key : c.1 = d.1 := by
        rcases Nat.lt_trichotomy c.1 d.1 with hlt | heq | hlt
        · have := h c.1
          rw [Memory.read, if_pos rfl, Memory.read, if_neg (by omega), above hn _ (by omega)] at this
          exact absurd this hc
        · exact heq
        · have := h d.1
          rw [Memory.read, if_neg (by omega), above hm _ (by omega), Memory.read, if_pos rfl] at this
          exact absurd this.symm hd
      have hv : c.2 = d.2 := by
        have := h c.1
        rwa [Memory.read, if_pos rfl, Memory.read, if_pos key.symm] at this
      have hcd : c = d := Prod.ext key hv
      subst hcd
      congr 1
      refine ih ⟨(List.pairwise_cons.mp hm.1).2, fun e he => hm.2 e (by simp [he])⟩
        ⟨(List.pairwise_cons.mp hn.1).2, fun e he => hn.2 e (by simp [he])⟩ fun a => ?_
      have ha := h a
      simp only [Memory.read] at ha
      by_cases hca : c.1 = a
      · rw [above hm a (by omega), above hn a (by omega)]
      · rwa [if_neg hca, if_neg hca] at ha

end Sys2Proof.Machine
end

