-- ==== Sys2Proof/Laws/State.lean ====
section
/-! SUPPORT. What each update of a state, and of a block, leaves in each field: true by unfolding, so that no later proof
unfolds an update. -/

namespace Sys2Proof.Machine

variable (s : State) (b : Block)

@[simp] theorem State.setBlk_blk (c : Block) : (s.setBlk c).blk = c := rfl
@[simp] theorem State.setBlk_others (c : Block) : (s.setBlk c).others = s.others := rfl
@[simp] theorem State.setBlk_busMap (c : Block) : (s.setBlk c).busMap = s.busMap := rfl
@[simp] theorem State.setBlk_mem (c : Block) : (s.setBlk c).mem = s.mem := rfl
@[simp] theorem State.setBlk_lastRead (c : Block) : (s.setBlk c).lastRead = s.lastRead := rfl
@[simp] theorem State.setBlk_agenda (c : Block) : (s.setBlk c).agenda = s.agenda := rfl
@[simp] theorem State.setBlk_draws (c : Block) : (s.setBlk c).draws = s.draws := rfl

@[simp] theorem State.setMem_blk (m : Memory) : (s.setMem m).blk = s.blk := rfl
@[simp] theorem State.setMem_others (m : Memory) : (s.setMem m).others = s.others := rfl
@[simp] theorem State.setMem_busMap (m : Memory) : (s.setMem m).busMap = s.busMap := rfl
@[simp] theorem State.setMem_mem (m : Memory) : (s.setMem m).mem = m := rfl
@[simp] theorem State.setMem_lastRead (m : Memory) : (s.setMem m).lastRead = s.lastRead := rfl
@[simp] theorem State.setMem_agenda (m : Memory) : (s.setMem m).agenda = s.agenda := rfl
@[simp] theorem State.setMem_draws (m : Memory) : (s.setMem m).draws = s.draws := rfl

@[simp] theorem State.setAgenda_blk (es : List Event) : (s.setAgenda es).blk = s.blk := rfl
@[simp] theorem State.setAgenda_others (es : List Event) : (s.setAgenda es).others = s.others := rfl
@[simp] theorem State.setAgenda_busMap (es : List Event) : (s.setAgenda es).busMap = s.busMap := rfl
@[simp] theorem State.setAgenda_mem (es : List Event) : (s.setAgenda es).mem = s.mem := rfl
@[simp] theorem State.setAgenda_lastRead (es : List Event) : (s.setAgenda es).lastRead = s.lastRead := rfl
@[simp] theorem State.setAgenda_agenda (es : List Event) : (s.setAgenda es).agenda = es := rfl
@[simp] theorem State.setAgenda_draws (es : List Event) : (s.setAgenda es).draws = s.draws := rfl

@[simp] theorem State.setLastRead_blk (d : Datum) : (s.setLastRead d).blk = s.blk := rfl
@[simp] theorem State.setLastRead_others (d : Datum) : (s.setLastRead d).others = s.others := rfl
@[simp] theorem State.setLastRead_busMap (d : Datum) : (s.setLastRead d).busMap = s.busMap := rfl
@[simp] theorem State.setLastRead_mem (d : Datum) : (s.setLastRead d).mem = s.mem := rfl
@[simp] theorem State.setLastRead_lastRead (d : Datum) : (s.setLastRead d).lastRead = some d := rfl
@[simp] theorem State.setLastRead_agenda (d : Datum) : (s.setLastRead d).agenda = s.agenda := rfl
@[simp] theorem State.setLastRead_draws (d : Datum) : (s.setLastRead d).draws = s.draws := rfl

@[simp] theorem State.drawn_blk (n : Nat) : (s.drawn n).blk = s.blk := rfl
@[simp] theorem State.drawn_others (n : Nat) : (s.drawn n).others = s.others := rfl
@[simp] theorem State.drawn_busMap (n : Nat) : (s.drawn n).busMap = s.busMap := rfl
@[simp] theorem State.drawn_mem (n : Nat) : (s.drawn n).mem = s.mem := rfl
@[simp] theorem State.drawn_lastRead (n : Nat) : (s.drawn n).lastRead = s.lastRead := rfl
@[simp] theorem State.drawn_agenda (n : Nat) : (s.drawn n).agenda = s.agenda := rfl
@[simp] theorem State.drawn_draws (n : Nat) : (s.drawn n).draws = s.draws + n := rfl

@[simp] theorem State.scramble_blk (r : Region) : (s.scramble r).blk = s.blk := rfl
@[simp] theorem State.scramble_others (r : Region) : (s.scramble r).others = s.others := rfl
@[simp] theorem State.scramble_busMap (r : Region) : (s.scramble r).busMap = s.busMap := rfl
@[simp] theorem State.scramble_mem (r : Region) : (s.scramble r).mem = Memory.scramble s.mem r (s.admits .write) s.draws := rfl
@[simp] theorem State.scramble_lastRead (r : Region) : (s.scramble r).lastRead = s.lastRead := rfl
@[simp] theorem State.scramble_agenda (r : Region) : (s.scramble r).agenda = s.agenda := rfl
@[simp] theorem State.scramble_draws (r : Region) : (s.scramble r).draws = s.draws + r.size := rfl

@[simp] theorem State.raiseError_blk (e : ErrCode) : (s.raiseError e).blk = s.blk.completeError e := rfl
@[simp] theorem State.raiseError_others (e : ErrCode) : (s.raiseError e).others = s.others := rfl
@[simp] theorem State.raiseError_busMap (e : ErrCode) : (s.raiseError e).busMap = s.busMap := rfl
@[simp] theorem State.raiseError_mem (e : ErrCode) : (s.raiseError e).mem = s.mem := rfl
@[simp] theorem State.raiseError_lastRead (e : ErrCode) : (s.raiseError e).lastRead = s.lastRead := rfl
@[simp] theorem State.raiseError_agenda (e : ErrCode) : (s.raiseError e).agenda = s.agenda := rfl
@[simp] theorem State.raiseError_draws (e : ErrCode) : (s.raiseError e).draws = s.draws := rfl

@[simp] theorem State.complete_blk (n : Nat) : (s.complete n).blk = s.blk.completeOk n := rfl
@[simp] theorem State.complete_others (n : Nat) : (s.complete n).others = s.others := rfl
@[simp] theorem State.complete_busMap (n : Nat) : (s.complete n).busMap = s.busMap := rfl
@[simp] theorem State.complete_mem (n : Nat) : (s.complete n).mem = s.mem := rfl
@[simp] theorem State.complete_lastRead (n : Nat) : (s.complete n).lastRead = s.lastRead := rfl
@[simp] theorem State.complete_agenda (n : Nat) : (s.complete n).agenda = s.agenda := rfl
@[simp] theorem State.complete_draws (n : Nat) : (s.complete n).draws = s.draws := rfl

@[simp] theorem State.launch_blk (w : Word) : (s.launch w).blk = (s.blk.writeReg .cmd w).start := rfl
@[simp] theorem State.launch_others (w : Word) : (s.launch w).others = s.others := rfl
@[simp] theorem State.launch_busMap (w : Word) : (s.launch w).busMap = s.busMap := rfl
@[simp] theorem State.launch_mem (w : Word) : (s.launch w).mem = s.mem := rfl
@[simp] theorem State.launch_lastRead (w : Word) : (s.launch w).lastRead = s.lastRead := rfl
@[simp] theorem State.launch_agenda (w : Word) : (s.launch w).agenda = .engine 0 :: s.agenda := rfl
@[simp] theorem State.launch_draws (w : Word) : (s.launch w).draws = s.draws := rfl

@[simp] theorem State.waitAgain_blk (e : Event) : (s.waitAgain e).blk = s.blk := rfl
@[simp] theorem State.waitAgain_others (e : Event) : (s.waitAgain e).others = s.others := rfl
@[simp] theorem State.waitAgain_busMap (e : Event) : (s.waitAgain e).busMap = s.busMap := rfl
@[simp] theorem State.waitAgain_mem (e : Event) : (s.waitAgain e).mem = s.mem := rfl
@[simp] theorem State.waitAgain_lastRead (e : Event) : (s.waitAgain e).lastRead = s.lastRead := rfl
@[simp] theorem State.waitAgain_agenda (e : Event) : (s.waitAgain e).agenda = s.allTurns ++ e :: s.agenda := rfl
@[simp] theorem State.waitAgain_draws (e : Event) : (s.waitAgain e).draws = s.draws := rfl

@[simp] theorem State.resetBlk_blk : (s.resetBlk).blk = Block.afterReset s.blk.port (freeLatched s.draws) := rfl
@[simp] theorem State.resetBlk_others : (s.resetBlk).others = s.others := rfl
@[simp] theorem State.resetBlk_busMap : (s.resetBlk).busMap = s.busMap := rfl
@[simp] theorem State.resetBlk_mem : (s.resetBlk).mem = s.mem := rfl
@[simp] theorem State.resetBlk_lastRead : (s.resetBlk).lastRead = s.lastRead := rfl
@[simp] theorem State.resetBlk_agenda : (s.resetBlk).agenda = s.agenda := rfl
@[simp] theorem State.resetBlk_draws : (s.resetBlk).draws = s.draws + 7 := rfl

@[simp] theorem Block.completeOk_port (n : Nat) : (b.completeOk n).port = b.port := rfl
@[simp] theorem Block.completeOk_cmd (n : Nat) : (b.completeOk n).cmd = b.cmd := rfl
@[simp] theorem Block.completeOk_done (n : Nat) : (b.completeOk n).done = true := rfl
@[simp] theorem Block.completeOk_err (n : Nat) : (b.completeOk n).err = false := rfl
@[simp] theorem Block.completeOk_goIgnored (n : Nat) : (b.completeOk n).goIgnored = b.goIgnored := rfl
@[simp] theorem Block.completeOk_errCode (n : Nat) : (b.completeOk n).errCode = 0#4 := rfl
@[simp] theorem Block.completeOk_doneIe (n : Nat) : (b.completeOk n).doneIe = b.doneIe := rfl
@[simp] theorem Block.completeOk_errIe (n : Nat) : (b.completeOk n).errIe = b.errIe := rfl
@[simp] theorem Block.completeOk_srcAddr (n : Nat) : (b.completeOk n).srcAddr = b.srcAddr := rfl
@[simp] theorem Block.completeOk_dstAddr (n : Nat) : (b.completeOk n).dstAddr = b.dstAddr := rfl
@[simp] theorem Block.completeOk_len (n : Nat) : (b.completeOk n).len = b.len := rfl
@[simp] theorem Block.completeOk_width (n : Nat) : (b.completeOk n).width = b.width := rfl
@[simp] theorem Block.completeOk_height (n : Nat) : (b.completeOk n).height = b.height := rfl
@[simp] theorem Block.completeOk_outCount (n : Nat) : (b.completeOk n).outCount = BitVec.ofNat 32 n := rfl
@[simp] theorem Block.completeOk_phase (n : Nat) : (b.completeOk n).phase = .idle := rfl
@[simp] theorem Block.completeOk_latched (n : Nat) : (b.completeOk n).latched = b.latched := rfl
@[simp] theorem Block.completeOk_unobserved (n : Nat) : (b.completeOk n).unobserved = b.unobserved := rfl

@[simp] theorem Block.completeError_port (e : ErrCode) : (b.completeError e).port = b.port := rfl
@[simp] theorem Block.completeError_cmd (e : ErrCode) : (b.completeError e).cmd = b.cmd := rfl
@[simp] theorem Block.completeError_done (e : ErrCode) : (b.completeError e).done = false := rfl
@[simp] theorem Block.completeError_err (e : ErrCode) : (b.completeError e).err = true := rfl
@[simp] theorem Block.completeError_goIgnored (e : ErrCode) : (b.completeError e).goIgnored = b.goIgnored := rfl
@[simp] theorem Block.completeError_errCode (e : ErrCode) : (b.completeError e).errCode = e.bits := rfl
@[simp] theorem Block.completeError_doneIe (e : ErrCode) : (b.completeError e).doneIe = b.doneIe := rfl
@[simp] theorem Block.completeError_errIe (e : ErrCode) : (b.completeError e).errIe = b.errIe := rfl
@[simp] theorem Block.completeError_srcAddr (e : ErrCode) : (b.completeError e).srcAddr = b.srcAddr := rfl
@[simp] theorem Block.completeError_dstAddr (e : ErrCode) : (b.completeError e).dstAddr = b.dstAddr := rfl
@[simp] theorem Block.completeError_len (e : ErrCode) : (b.completeError e).len = b.len := rfl
@[simp] theorem Block.completeError_width (e : ErrCode) : (b.completeError e).width = b.width := rfl
@[simp] theorem Block.completeError_height (e : ErrCode) : (b.completeError e).height = b.height := rfl
@[simp] theorem Block.completeError_outCount (e : ErrCode) : (b.completeError e).outCount = 0#32 := rfl
@[simp] theorem Block.completeError_phase (e : ErrCode) : (b.completeError e).phase = .idle := rfl
@[simp] theorem Block.completeError_latched (e : ErrCode) : (b.completeError e).latched = b.latched := rfl
@[simp] theorem Block.completeError_unobserved (e : ErrCode) : (b.completeError e).unobserved = b.unobserved := rfl

@[simp] theorem Block.start_port : (b.start).port = b.port := rfl
@[simp] theorem Block.start_cmd : (b.start).cmd = b.cmd := rfl
@[simp] theorem Block.start_done : (b.start).done = false := rfl
@[simp] theorem Block.start_err : (b.start).err = false := rfl
@[simp] theorem Block.start_goIgnored : (b.start).goIgnored = b.goIgnored := rfl
@[simp] theorem Block.start_errCode : (b.start).errCode = 0#4 := rfl
@[simp] theorem Block.start_doneIe : (b.start).doneIe = b.doneIe := rfl
@[simp] theorem Block.start_errIe : (b.start).errIe = b.errIe := rfl
@[simp] theorem Block.start_srcAddr : (b.start).srcAddr = b.srcAddr := rfl
@[simp] theorem Block.start_dstAddr : (b.start).dstAddr = b.dstAddr := rfl
@[simp] theorem Block.start_len : (b.start).len = b.len := rfl
@[simp] theorem Block.start_width : (b.start).width = b.width := rfl
@[simp] theorem Block.start_height : (b.start).height = b.height := rfl
@[simp] theorem Block.start_outCount : (b.start).outCount = 0#32 := rfl
@[simp] theorem Block.start_phase : (b.start).phase = .busy := rfl
@[simp] theorem Block.start_latched : (b.start).latched = b.parameters := rfl
@[simp] theorem Block.start_unobserved : (b.start).unobserved = b.parameters :: b.unobserved := rfl

@[simp] theorem Block.writeStatus_port (v : Word) : (b.writeStatus v).port = b.port := rfl
@[simp] theorem Block.writeStatus_cmd (v : Word) : (b.writeStatus v).cmd = b.cmd := rfl
@[simp] theorem Block.writeStatus_done (v : Word) : (b.writeStatus v).done = (b.done && !v.getLsbD 1) := rfl
@[simp] theorem Block.writeStatus_err (v : Word) : (b.writeStatus v).err = (b.err && !v.getLsbD 2) := rfl
@[simp] theorem Block.writeStatus_goIgnored (v : Word) : (b.writeStatus v).goIgnored = (b.goIgnored && !v.getLsbD 3) := rfl
@[simp] theorem Block.writeStatus_errCode (v : Word) : (b.writeStatus v).errCode = (if v.getLsbD 2 then 0#4 else b.errCode) := rfl
@[simp] theorem Block.writeStatus_doneIe (v : Word) : (b.writeStatus v).doneIe = b.doneIe := rfl
@[simp] theorem Block.writeStatus_errIe (v : Word) : (b.writeStatus v).errIe = b.errIe := rfl
@[simp] theorem Block.writeStatus_srcAddr (v : Word) : (b.writeStatus v).srcAddr = b.srcAddr := rfl
@[simp] theorem Block.writeStatus_dstAddr (v : Word) : (b.writeStatus v).dstAddr = b.dstAddr := rfl
@[simp] theorem Block.writeStatus_len (v : Word) : (b.writeStatus v).len = b.len := rfl
@[simp] theorem Block.writeStatus_width (v : Word) : (b.writeStatus v).width = b.width := rfl
@[simp] theorem Block.writeStatus_height (v : Word) : (b.writeStatus v).height = b.height := rfl
@[simp] theorem Block.writeStatus_outCount (v : Word) : (b.writeStatus v).outCount = b.outCount := rfl
@[simp] theorem Block.writeStatus_phase (v : Word) : (b.writeStatus v).phase = b.phase := rfl
@[simp] theorem Block.writeStatus_latched (v : Word) : (b.writeStatus v).latched = b.latched := rfl
@[simp] theorem Block.writeStatus_unobserved (v : Word) : (b.writeStatus v).unobserved = b.unobserved := rfl

@[simp] theorem Block.afterReset_port (p : Port) (l : Latched) : (Block.afterReset p l).port = p := rfl
@[simp] theorem Block.afterReset_cmd (p : Port) (l : Latched) : (Block.afterReset p l).cmd = 0#6 := rfl
@[simp] theorem Block.afterReset_done (p : Port) (l : Latched) : (Block.afterReset p l).done = false := rfl
@[simp] theorem Block.afterReset_err (p : Port) (l : Latched) : (Block.afterReset p l).err = false := rfl
@[simp] theorem Block.afterReset_goIgnored (p : Port) (l : Latched) : (Block.afterReset p l).goIgnored = false := rfl
@[simp] theorem Block.afterReset_errCode (p : Port) (l : Latched) : (Block.afterReset p l).errCode = 0#4 := rfl
@[simp] theorem Block.afterReset_doneIe (p : Port) (l : Latched) : (Block.afterReset p l).doneIe = false := rfl
@[simp] theorem Block.afterReset_errIe (p : Port) (l : Latched) : (Block.afterReset p l).errIe = false := rfl
@[simp] theorem Block.afterReset_srcAddr (p : Port) (l : Latched) : (Block.afterReset p l).srcAddr = 0#32 := rfl
@[simp] theorem Block.afterReset_dstAddr (p : Port) (l : Latched) : (Block.afterReset p l).dstAddr = 0#32 := rfl
@[simp] theorem Block.afterReset_len (p : Port) (l : Latched) : (Block.afterReset p l).len = 0#32 := rfl
@[simp] theorem Block.afterReset_width (p : Port) (l : Latched) : (Block.afterReset p l).width = 0#32 := rfl
@[simp] theorem Block.afterReset_height (p : Port) (l : Latched) : (Block.afterReset p l).height = 0#32 := rfl
@[simp] theorem Block.afterReset_outCount (p : Port) (l : Latched) : (Block.afterReset p l).outCount = 0#32 := rfl
@[simp] theorem Block.afterReset_phase (p : Port) (l : Latched) : (Block.afterReset p l).phase = .idle := rfl
@[simp] theorem Block.afterReset_latched (p : Port) (l : Latched) : (Block.afterReset p l).latched = l := rfl
@[simp] theorem Block.afterReset_unobserved (p : Port) (l : Latched) : (Block.afterReset p l).unobserved = [] := rfl

/-- A block is busy exactly in phase BUSY (R30). -/
@[simp] theorem Block.busy_iff : b.busy = true ↔ b.phase = .busy := by simp [Block.busy]

@[simp] theorem Block.not_busy_iff : b.busy = false ↔ b.phase = .idle := by
  cases h : b.phase <;> simp [Block.busy, h]

theorem Block.completeError_same (e : ErrCode) : b.sameButOutcome (b.completeError e) := by simp [Block.sameButOutcome]

theorem Block.completeOk_same (n : Nat) : b.sameButOutcome (b.completeOk n) := by simp [Block.sameButOutcome]

theorem Block.completeError_shows (e : ErrCode) : (b.completeError e).showsError e.bits := by simp [Block.showsError]

/-- An element count below 2^32 is what OUT_COUNT holds (R32). -/
theorem Block.completeOk_shows {n : Nat} (h : n < addressSpace) : (b.completeOk n).showsOk n := by
  simp only [Block.showsOk, Block.completeOk_done, Block.completeOk_err, Block.completeOk_errCode,
    Block.completeOk_outCount, Block.completeOk_phase, BitVec.toNat_ofNat, true_and, and_true]
  exact Nat.mod_eq_of_lt h

theorem ErrCode.bits_range (e : ErrCode) : 1 ≤ e.bits.toNat ∧ e.bits.toNat ≤ 8 := by cases e <;> decide

theorem Block.completeError_consistent (e : ErrCode) : (b.completeError e).consistent := by
  simpa [Block.consistent] using ErrCode.bits_range e

theorem Block.completeOk_consistent (n : Nat) : (b.completeOk n).consistent := by simp [Block.consistent]

theorem Block.start_consistent : b.start.consistent := by simp [Block.consistent]

theorem Block.afterReset_consistent (p : Port) (l : Latched) : (Block.afterReset p l).consistent := by
  simp [Block.consistent]

@[simp] theorem Block.observe_port : b.observe.port = b.port := rfl
@[simp] theorem Block.observe_cmd : b.observe.cmd = b.cmd := rfl
@[simp] theorem Block.observe_done : b.observe.done = b.done := rfl
@[simp] theorem Block.observe_err : b.observe.err = b.err := rfl
@[simp] theorem Block.observe_goIgnored : b.observe.goIgnored = b.goIgnored := rfl
@[simp] theorem Block.observe_errCode : b.observe.errCode = b.errCode := rfl
@[simp] theorem Block.observe_doneIe : b.observe.doneIe = b.doneIe := rfl
@[simp] theorem Block.observe_errIe : b.observe.errIe = b.errIe := rfl
@[simp] theorem Block.observe_srcAddr : b.observe.srcAddr = b.srcAddr := rfl
@[simp] theorem Block.observe_dstAddr : b.observe.dstAddr = b.dstAddr := rfl
@[simp] theorem Block.observe_len : b.observe.len = b.len := rfl
@[simp] theorem Block.observe_width : b.observe.width = b.width := rfl
@[simp] theorem Block.observe_height : b.observe.height = b.height := rfl
@[simp] theorem Block.observe_outCount : b.observe.outCount = b.outCount := rfl
@[simp] theorem Block.observe_phase : b.observe.phase = b.phase := rfl
@[simp] theorem Block.observe_latched : b.observe.latched = b.latched := rfl
@[simp] theorem Block.observe_unobserved : b.observe.unobserved = if b.busy then b.unobserved else [] := rfl

/-- A host read changes nothing but what the host knows (R63, R85). -/
theorem Block.afterRead_eq (r : Reg) :
    b.afterRead r = { b with unobserved := if r = .status ∧ b.phase = .idle then [] else b.unobserved } := by
  cases r <;> try rfl
  unfold Block.afterRead Block.observe
  cases h : b.busy
  · simp [(Block.not_busy_iff b).mp h]
  · simp [(Block.busy_iff b).mp h]

/-- A block whose interrupt the host takes changes nothing but what the host knows (R63). -/
theorem Block.taken_eq (line : Nat) :
    b.taken line =
      { b with unobserved := if b.port.irqRoute = line ∧ b.irq = true ∧ b.phase = .idle then [] else b.unobserved } := by
  unfold Block.taken Block.observe
  by_cases h : b.port.irqRoute = line ∧ b.irq = true
  · rw [if_pos (by simpa using h)]
    cases hp : b.busy
    · simp [h, (Block.not_busy_iff b).mp hp]
    · simp [(Block.busy_iff b).mp hp]
  · rw [if_neg (by simpa using h), if_neg fun h' => h ⟨h'.1, h'.2.1⟩]

@[simp] theorem State.takeLine_blk (line : Nat) : (s.takeLine line).blk = s.blk.taken line := rfl
@[simp] theorem State.takeLine_others (line : Nat) : (s.takeLine line).others = s.others.map (Block.taken line) := rfl
@[simp] theorem State.takeLine_busMap (line : Nat) : (s.takeLine line).busMap = s.busMap := rfl
@[simp] theorem State.takeLine_mem (line : Nat) : (s.takeLine line).mem = s.mem := rfl
@[simp] theorem State.takeLine_lastRead (line : Nat) : (s.takeLine line).lastRead = s.lastRead := rfl
@[simp] theorem State.takeLine_agenda (line : Nat) : (s.takeLine line).agenda = s.agenda := rfl
@[simp] theorem State.takeLine_draws (line : Nat) : (s.takeLine line).draws = s.draws := rfl

theorem Block.observe_consistent {b : Block} (h : b.consistent) : b.observe.consistent := by
  obtain ⟨h1, h2, h3, h4⟩ := h
  refine ⟨h1, h2, h3, fun hp => ?_⟩
  rw [Block.observe_unobserved, if_pos ((Block.busy_iff b).mpr hp)]
  exact h4 hp

theorem Block.afterRead_consistent {b : Block} (h : b.consistent) (r : Reg) : (b.afterRead r).consistent := by
  cases r <;> first | exact h | exact Block.observe_consistent h

theorem Block.taken_consistent {b : Block} (h : b.consistent) (line : Nat) : (b.taken line).consistent := by
  unfold Block.taken; split
  · exact Block.observe_consistent h
  · exact h

/-- No write to a register breaks what STATUS, OUT_COUNT and the phase say together. -/
theorem Block.writeReg_consistent {b : Block} (h : b.consistent) (r : Reg) (v : Word) : (b.writeReg r v).consistent := by
  obtain ⟨h1, h2, h3, h4⟩ := h
  cases r with
  | ctrl =>
    unfold Block.writeReg Block.writeCtrl
    dsimp only
    split
    · split
      · exact Block.start_consistent b
      · exact ⟨h1, h2, h3, h4⟩
    · exact ⟨h1, h2, h3, h4⟩
  | status =>
    simp only [Block.writeReg, Block.consistent, Block.writeStatus_done, Block.writeStatus_err,
      Block.writeStatus_errCode, Block.writeStatus_outCount, Block.writeStatus_phase]
    cases hv : v.getLsbD 2 with
    | true =>
      refine ⟨by simp, by simp, by simp, fun hp => ?_⟩
      obtain ⟨hd, _, ho, hu⟩ := h4 hp
      simp [hd, ho, hu]
    | false =>
      refine ⟨fun ⟨hd, he⟩ => h1 ?_, fun he => ?_, fun he => ?_, fun hp => ?_⟩
      · simp only [Bool.and_eq_true, Bool.not_false, and_true] at hd he; exact ⟨hd.1, he⟩
      · simp only [Bool.not_false, Bool.and_true] at he; simpa using h2 he
      · simp only [Bool.not_false, Bool.and_true] at he; simpa using h3 he
      · obtain ⟨hd, he, ho, hu⟩ := h4 hp; simp [hd, he, ho, hu]
  | _ => exact ⟨h1, h2, h3, h4⟩

end Sys2Proof.Machine
end

