-- ==== Sys2Proof/Laws/Operands.lean ====
section
/-! SUPPORT. What the regions, the checks and the admission of a command say, as propositions. -/

namespace Sys2Proof.Machine

theorem Region.has_iff (r : Region) (a : Nat) : r.has a = true ↔ r.start ≤ a ∧ a < r.start + r.size := by
  simp [Region.has]

theorem Region.has_eq_false (r : Region) (a : Nat) : r.has a = false ↔ ¬(r.start ≤ a ∧ a < r.start + r.size) := by
  rw [← Region.has_iff, Bool.not_eq_true]

theorem Region.overlaps_iff (r q : Region) :
    r.overlaps q = true ↔ 0 < r.size ∧ 0 < q.size ∧ r.start < q.start + q.size ∧ q.start < r.start + r.size := by
  simp [Region.overlaps]

/-- Two regions overlap exactly when they share an address (R14). -/
theorem Region.overlaps_iff_share (r q : Region) :
    r.overlaps q = true ↔ ∃ a, r.has a = true ∧ q.has a = true := by
  simp only [Region.overlaps_iff, Region.has_iff]
  constructor
  · rintro ⟨h1, h2, h3, h4⟩
    exact ⟨max r.start q.start, by omega, by omega⟩
  · rintro ⟨a, h1, h2⟩
    omega

theorem Region.overlaps_comm (r q : Region) : r.overlaps q = q.overlaps r := by
  rw [Bool.eq_iff_iff, Region.overlaps_iff, Region.overlaps_iff]; tauto

theorem Region.all_iff (r : Region) (p : Nat → Bool) : r.all p = true ↔ ∀ a, r.has a = true → p a = true := by
  simp only [Region.all, List.all_eq_true, List.mem_range, Region.has_iff]
  constructor
  · intro h a ⟨h1, h2⟩
    have := h (a - r.start) (by omega)
    rwa [Nat.add_sub_cancel' h1] at this
  · intro h i hi
    exact h _ ⟨by omega, by omega⟩

theorem Region.any_iff (r : Region) (p : Nat → Bool) : r.any p = true ↔ ∃ a, r.has a = true ∧ p a = true := by
  simp only [Region.any, List.any_eq_true, List.mem_range, Region.has_iff]
  constructor
  · rintro ⟨i, hi, hp⟩
    exact ⟨_, ⟨by omega, by omega⟩, hp⟩
  · rintro ⟨a, ⟨h1, h2⟩, hp⟩
    exact ⟨a - r.start, by omega, by rwa [Nat.add_sub_cancel' h1]⟩

theorem busAdmits_lt {m : List BusRange} {k : AccessKind} {a : Nat} (h : busAdmits m k a = true) : a < addressSpace := by
  simp only [busAdmits, Bool.and_eq_true, decide_eq_true_eq] at h
  exact h.1

/-- Only addresses that exist are admitted (R50). -/
theorem State.admits_lt {s : State} {k : AccessKind} {a : Nat} (h : s.admits k a = true) : a < addressSpace := by
  simp only [State.admits, Bool.and_eq_true] at h
  exact busAdmits_lt h.2

/-- The engine never reaches its own register window (R51). -/
theorem State.admits_ownWindow {s : State} {k : AccessKind} {a : Nat} (h : s.blk.window.has a = true) :
    s.admits k a = false := by
  simp [State.admits, h]

theorem State.admitsRegions_iff (s : State) (r : Regions) :
    s.admitsRegions r = true ↔
      (∀ a, r.src.has a = true → s.admits .read a = true) ∧ ∀ a, r.dst.has a = true → s.admits .write a = true := by
  simp only [State.admitsRegions, Bool.and_eq_true, Region.all_iff]

theorem State.onDevice_iff (s : State) (r : Regions) :
    s.onDevice r = true ↔
      (∃ a, r.src.has a = true ∧ s.admits .read a = true ∧ s.isDevice a = true) ∨
        ∃ a, r.dst.has a = true ∧ s.admits .write a = true ∧ s.isDevice a = true := by
  simp only [State.onDevice, Bool.or_eq_true, Region.any_iff, Bool.and_eq_true]

theorem Regions.conflict_comm (r q : Regions) : r.conflict q = q.conflict r := by
  simp only [Regions.conflict, Region.overlaps_comm q.dst, Region.overlaps_comm q.src]
  cases r.dst.overlaps q.dst <;> cases r.src.overlaps q.dst <;> cases r.dst.overlaps q.src <;> rfl

theorem Block.keepsApart_comm {b c : Block} (h : b.keepsApart c) : c.keepsApart b :=
  fun hc hb => by rw [Regions.conflict_comm]; exact h hb hc

/-- A command's regions pass every region check exactly when they are aligned, inside the address space and apart (R143,
R144). -/
theorem regionError_none_iff (r : Regions) :
    regionError r = none ↔
      (r.srcEven = true → r.src.start % 2 = 0) ∧ (r.dstEven = true → r.dst.start % 2 = 0) ∧
        r.src.start + r.src.size ≤ addressSpace ∧ r.dst.start + r.dst.size ≤ addressSpace ∧
          r.src.overlaps r.dst = false := by
  unfold regionError
  split
  · next h =>
    simp only [Bool.or_eq_true, Bool.and_eq_true, bne_iff_ne, ne_eq] at h
    simp only [reduceCtorEq, false_iff]
    rintro ⟨h1, h2, _⟩
    rcases h with ⟨ha, hb⟩ | ⟨ha, hb⟩
    · exact hb (h1 ha)
    · exact hb (h2 ha)
  · next h =>
    simp only [Bool.or_eq_true, Bool.and_eq_true, bne_iff_ne, ne_eq, not_or, not_and, not_not] at h
    split
    · next h2 =>
      simp only [Bool.or_eq_true, decide_eq_true_eq] at h2
      simp only [reduceCtorEq, false_iff]
      rintro ⟨_, _, h3, h4, _⟩
      omega
    · next h2 =>
      simp only [Bool.or_eq_true, decide_eq_true_eq, not_or, Nat.not_lt] at h2
      split
      · next h3 => simp [h3]
      · next h3 => exact ⟨fun _ => ⟨h.1, h.2, h2.1, h2.2, by simpa using h3⟩, fun _ => rfl⟩

theorem unpackCheck_none_iff (l : Latched) :
    unpackCheck l = none ↔ l.len.toNat % 3 = 0 ∧ regionError (unpackRegions l) = none := by
  unfold unpackCheck; split <;> simp_all

theorem packCheck_none_iff (l : Latched) :
    packCheck l = none ↔ l.len.toNat % 2 = 0 ∧ regionError (packRegions l) = none := by
  unfold packCheck; split <;> simp_all

theorem debayerCheck_none_iff (l : Latched) :
    debayerCheck l = none ↔ (2 ≤ l.w.toNat ∧ 2 ≤ l.h.toNat) ∧ regionError (debayerRegions l) = none := by
  unfold debayerCheck
  split
  · next h =>
    simp only [Bool.or_eq_true, decide_eq_true_eq] at h
    simp only [reduceCtorEq, false_iff, not_and]
    omega
  · next h =>
    simp only [Bool.or_eq_true, decide_eq_true_eq, not_or, Nat.not_lt] at h
    exact ⟨fun h2 => ⟨h, h2⟩, fun h2 => h2.2⟩

/-- A command that passes its checks has its destination inside the address space (R143). -/
theorem instrCheck_dst {l : Latched} {i : Instr} (h : instrCheck l i = none) :
    (instrRegions l i).dst.start + (instrRegions l i).dst.size ≤ addressSpace := by
  cases i with
  | nop => exact Nat.zero_le _
  | unpack12 => exact ((regionError_none_iff _).mp ((unpackCheck_none_iff l).mp h).2).2.2.2.1
  | pack12 => exact ((regionError_none_iff _).mp ((packCheck_none_iff l).mp h).2).2.2.2.1
  | debayer c => exact ((regionError_none_iff _).mp ((debayerCheck_none_iff l).mp h).2).2.2.2.1

/-- Bit `i` of a latched command word: OP in bits 3:0, CFA in bits 5:4, the rest 0 (R70). -/
theorem Latched.getLsbD_commandWord (l : Latched) (i : Nat) :
    l.commandWord.getLsbD i =
      if i < 4 then l.op.getLsbD i else if i < 6 then l.cfa.getLsbD (i - 4) else false := by
  change BitVec.getLsbD ((0#26 ++ l.cfa : BitVec (26 + 2)) ++ l.op) i = _
  rw [BitVec.getLsbD_append, BitVec.getLsbD_append]
  split
  · simp [*]
  · next h =>
    by_cases h6 : i < 6
    · have : i - 4 < 2 := by omega
      simp [this, h6]
    · have : ¬(i - 4 < 2) := by omega
      simp [this, h6]

/-- The OP field of a latched command word is the latched OP (R70). -/
@[simp] theorem Latched.opField_commandWord (l : Latched) : opField l.commandWord = l.op := by
  unfold opField
  ext i hi
  rw [BitVec.getElem_extractLsb', Latched.getLsbD_commandWord, Nat.zero_add, if_pos hi, BitVec.getLsbD_eq_getElem hi]

/-- The CFA field of a latched command word is the latched CFA (R70). -/
@[simp] theorem Latched.cfaField_commandWord (l : Latched) : cfaField l.commandWord = l.cfa := by
  unfold cfaField
  ext i hi
  rw [BitVec.getElem_extractLsb', Latched.getLsbD_commandWord, if_neg (by omega), if_pos (by omega),
    Nat.add_sub_cancel_left, BitVec.getLsbD_eq_getElem hi]

end Sys2Proof.Machine
end

