-- ==== Sys2Proof/Laws/Exec.lean ====
section
/-! SUPPORT. Everything a command's completion step can do, said once. -/

namespace Sys2Proof.Machine

/-- The memory a command leaves when no error applies (R102, R106, R125). -/
def commandResult (s : State) : Instr → Memory
  | .nop => s.mem
  | .unpack12 => unpackResult s.mem s.blk.latched
  | .pack12 => packResult s.mem s.blk.latched
  | .debayer c => debayerResult s.mem s.blk.latched c

/-- The number of elements a command writes when no error applies (R32). -/
def commandCount (l : Latched) : Instr → Nat
  | .nop => 0
  | .unpack12 => 2 * (l.len.toNat / 3)
  | .pack12 => 3 * (l.len.toNat / 2)
  | .debayer _ => l.w.toNat * l.h.toNat

/-- SAMPLE_RANGE applies to a command: to PACK12 only (R146). -/
def commandSampleBad (s : State) : Instr → Bool
  | .pack12 => s.sampleTooLarge s.blk.latched
  | _ => false

theorem cellBytes_length (v : Cell) : (cellBytes v).length = 2 := rfl

theorem unpackLane_length (m : Memory) (src k : Nat) : (unpackLane m src k).length = 4 := rfl

theorem packLane_length (m : Memory) (src k : Nat) : (packLane m src k).length = 3 := rfl

theorem debayerLane_length (m : Memory) (src : Nat) (c : CfaPattern) (w h k : Nat) :
    (debayerLane m src c w h k).length = 6 := rfl

theorem accessError_range {s : State} {r : Regions} {b : Bool} {e : ErrCode} (h : s.accessError r b = some e) :
    e = .sampleRange ∨ e = .busError := by
  unfold State.accessError at h
  split at h
  · exact .inl (Option.some.inj h).symm
  · have := (Option.some.inj h).symm
    split at this
    · exact .inl this
    · exact .inr this
  · exact .inr (Option.some.inj h).symm
  · cases h

/-- No execution error applies exactly when no sample is too large and every byte is admitted (R146). -/
theorem accessError_none_iff (s : State) (r : Regions) (b : Bool) :
    s.accessError r b = none ↔ b = false ∧ s.admitsRegions r = true := by
  unfold State.accessError
  cases b <;> cases s.admitsRegions r <;> simp

/-- Every command but NOP: an error of its checks, or its memory phase (R142 to R147). -/
theorem exec_eq (i : Instr) (s : State) :
    exec i s =
      match instrCheck s.blk.latched i with
      | some e => .next (s.raiseError e)
      | none =>
        match i with
        | .nop => .next (s.complete 0)
        | i =>
          s.accessMemory (instrRegions s.blk.latched i) (commandSampleBad s i) (commandResult s i)
            (commandCount s.blk.latched i) := by
  cases i <;> rfl

/-- What a command's result leaves in each byte outside its destination region (R55). -/
theorem commandResult_agreeOutside (s : State) (i : Instr) :
    Memory.agreeOutside s.mem (commandResult s i) (instrRegions s.blk.latched i).dst := by
  intro a ha
  rw [Region.has_eq_false] at ha
  cases i with
  | nop => rfl
  | unpack12 =>
    simp only [commandResult, unpackResult]
    rw [Memory.read_writeLanes _ _ _ _ _ fun k _ => unpackLane_length _ _ k]
    exact if_neg ha
  | pack12 =>
    simp only [commandResult, packResult]
    rw [Memory.read_writeLanes _ _ _ _ _ fun k _ => packLane_length _ _ k]
    exact if_neg ha
  | debayer c =>
    simp only [commandResult, debayerResult]
    rw [Memory.read_writeLanes _ _ _ _ _ (fun k _ => debayerLane_length _ _ c _ _ k), if_neg]
    simpa only [instrRegions, debayerRegions, Nat.mul_assoc] using ha

theorem wf_lanes {m : Memory} (h : Memory.wf m) {dst stride n : Nat} {lane : Nat → List Byte}
    (hl : ∀ k, (lane k).length = stride) (hd : dst + stride * n ≤ addressSpace) :
    Memory.wf (Memory.writeLanes m dst stride lane (List.range n)) := by
  refine Memory.wf_writeLanes h fun k hk => ?_
  have hk := List.mem_range.mp hk
  have := Nat.mul_le_mul_left stride (show k + 1 ≤ n from hk)
  rw [Nat.mul_add, Nat.mul_one] at this
  rw [hl k]; omega

theorem commandResult_wf {s : State} {i : Instr} (hc : instrCheck s.blk.latched i = none) (h : Memory.wf s.mem) :
    Memory.wf (commandResult s i) := by
  have hd := instrCheck_dst hc
  cases i with
  | nop => exact h
  | unpack12 => exact wf_lanes h (unpackLane_length _ _) hd
  | pack12 => exact wf_lanes h (packLane_length _ _) hd
  | debayer c =>
    refine wf_lanes h (debayerLane_length _ _ c _ _) ?_
    simpa only [instrRegions, debayerRegions, Nat.mul_assoc] using hd

/-- A successful element count fits OUT_COUNT (R104, R128). -/
theorem commandCount_lt {l : Latched} {i : Instr} (hc : instrCheck l i = none) : commandCount l i < addressSpace := by
  have hd := instrCheck_dst hc
  have hlen := l.len.isLt
  cases i with
  | nop => exact Nat.succ_pos _
  | unpack12 => simp only [instrRegions, unpackRegions, commandCount, addressSpace] at *; omega
  | pack12 =>
    have hs := ((regionError_none_iff _).mp ((packCheck_none_iff l).mp hc).2).2.2.1
    simp only [instrRegions, packRegions, commandCount, addressSpace] at *; omega
  | debayer c =>
    simp only [instrRegions, debayerRegions, commandCount, addressSpace, Nat.mul_assoc] at *; omega

/-- A completion step that answers a next state did one of three things: it met an error before any memory access, it met
an execution error, or it stored its result (R90, R148); past its checks it lay on no device (R59). -/
theorem exec_next {i : Instr} {s t : State} (h : exec i s = .next t) :
    (∃ e, instrCheck s.blk.latched i = some e ∧ t = s.raiseError e) ∨
      (∃ e, instrCheck s.blk.latched i = none ∧ s.onDevice (instrRegions s.blk.latched i) = false ∧
        s.accessError (instrRegions s.blk.latched i) (commandSampleBad s i) = some e ∧
        t = (s.scramble (instrRegions s.blk.latched i).dst).raiseError e) ∨
        (instrCheck s.blk.latched i = none ∧ s.onDevice (instrRegions s.blk.latched i) = false ∧
          s.accessError (instrRegions s.blk.latched i) (commandSampleBad s i) = none ∧
          t = (s.setMem (commandResult s i)).complete (commandCount s.blk.latched i)) := by
  rw [exec_eq] at h
  split at h
  · next e he => exact .inl ⟨e, he, (Host.Outcome.next.inj h).symm⟩
  · next he =>
    split at h
    · exact .inr (.inr ⟨he, rfl, rfl, (Host.Outcome.next.inj h).symm⟩)
    · unfold State.accessMemory at h
      split at h
      · cases h
      · next hd =>
        rw [Bool.not_eq_true] at hd
        split at h
        · next e hx => exact .inr (.inl ⟨e, he, hd, hx, (Host.Outcome.next.inj h).symm⟩)
        · next hx => exact .inr (.inr ⟨he, hd, hx, (Host.Outcome.next.inj h).symm⟩)

/-- The completion step keeps the one form of memory. -/
theorem exec_wf {i : Instr} {s t : State} (h : exec i s = .next t) (hm : Memory.wf s.mem) : Memory.wf t.mem := by
  rcases exec_next h with ⟨e, _, rfl⟩ | ⟨e, _, _, _, rfl⟩ | ⟨hc, _, _, rfl⟩
  · exact hm
  · exact Memory.wf_scramble _ _ hm fun a ha => State.admits_lt ha
  · exact commandResult_wf hc hm

/-- The completion step leaves everything around the focused block as it was. -/
theorem exec_around {i : Instr} {s t : State} (h : exec i s = .next t) : s.sameAround t := by
  rcases exec_next h with ⟨e, _, rfl⟩ | ⟨e, _, _, _, rfl⟩ | ⟨_, _, _, rfl⟩ <;> simp [State.sameAround]

/-- The completion step ends the command and writes nothing but the outcome (R90). -/
theorem exec_blk {i : Instr} {s t : State} (h : exec i s = .next t) :
    s.blk.sameButOutcome t.blk ∧ t.blk.phase = .idle ∧ t.blk.consistent := by
  rcases exec_next h with ⟨e, _, rfl⟩ | ⟨e, _, _, _, rfl⟩ | ⟨_, _, _, rfl⟩
  · exact ⟨Block.completeError_same _ _, rfl, Block.completeError_consistent _ _⟩
  · exact ⟨Block.completeError_same _ _, rfl, Block.completeError_consistent _ _⟩
  · exact ⟨Block.completeOk_same _ _, rfl, Block.completeOk_consistent _ _⟩

/-- A command writes no byte outside its destination region (R55). -/
theorem exec_mem {i : Instr} {s t : State} (h : exec i s = .next t) :
    Memory.agreeOutside s.mem t.mem (instrRegions s.blk.latched i).dst := by
  rcases exec_next h with ⟨e, _, rfl⟩ | ⟨e, _, _, _, rfl⟩ | ⟨_, _, _, rfl⟩
  · exact fun _ _ => rfl
  · intro a ha
    simp only [State.raiseError_mem, State.scramble_mem, Memory.read_scramble, ha, Bool.false_and]
    simp
  · exact commandResult_agreeOutside s i

/-- The memory phase answers a next state, or refuses a device (R59, R146). -/
theorem accessMemory_eq (s : State) (r : Regions) (b : Bool) (m : Memory) (n : Nat) (hd : s.onDevice r = false) :
    s.accessMemory r b m n =
      match s.accessError r b with
      | some e => .next ((s.scramble r.dst).raiseError e)
      | none => .next ((s.setMem m).complete n) := by
  rw [State.accessMemory, hd]
  rfl

/-- A command that passes its checks, lies on no device and meets no execution error stores its result and completes. -/
theorem exec_succeeds {i : Instr} {s : State} (hi : i ≠ .nop) (hc : instrCheck s.blk.latched i = none)
    (hd : s.onDevice (instrRegions s.blk.latched i) = false)
    (ha : s.admitsRegions (instrRegions s.blk.latched i) = true) (hb : commandSampleBad s i = false) :
    exec i s = .next ((s.setMem (commandResult s i)).complete (commandCount s.blk.latched i)) := by
  have he : s.accessError (instrRegions s.blk.latched i) (commandSampleBad s i) = none :=
    (accessError_none_iff _ _ _).mpr ⟨hb, ha⟩
  rw [exec_eq, hc]
  cases i with
  | nop => exact absurd rfl hi
  | _ => simp only; rw [accessMemory_eq _ _ _ _ _ hd, he]

/-- A command that ends with DONE passed its checks and met no execution error. -/
theorem exec_done {i : Instr} {s t : State} (h : exec i s = .next t) (hd : t.blk.done = true) :
    instrCheck s.blk.latched i = none ∧ t = (s.setMem (commandResult s i)).complete (commandCount s.blk.latched i) ∧
      commandSampleBad s i = false ∧ s.admitsRegions (instrRegions s.blk.latched i) = true := by
  rcases exec_next h with ⟨e, _, rfl⟩ | ⟨e, _, _, _, rfl⟩ | ⟨hc, _, hx, rfl⟩
  · cases hd
  · cases hd
  · exact ⟨hc, rfl, (accessError_none_iff _ _ _).mp hx⟩

end Sys2Proof.Machine
end

