-- ==== Sys2Proof/Laws/Lanes.lean ====
section
/-! SUPPORT. What the lanes of the three commands read and write. -/

namespace Sys2Proof.Machine

theorem cell_of_bytes (v : Cell) : v.extractLsb' 8 8 ++ v.extractLsb' 0 8 = v := by
  apply BitVec.eq_of_toNat_eq
  have := v.isLt
  rw [BitVec.toNat_append, ← Nat.shiftLeft_add_eq_or_of_lt (by simp; omega)]
  simp [Nat.shiftLeft_eq, Nat.shiftRight_eq_div_pow]; omega

/-- Byte `j` of lane `k` of lanes 0 to n - 1. -/
theorem read_lane (m : Memory) (dst stride n : Nat) (lane : Nat → List Byte) (hl : ∀ k, (lane k).length = stride)
    (k j : Nat) (hk : k < n) (hj : j < stride) :
    Memory.read (Memory.writeLanes m dst stride lane (List.range n)) (dst + stride * k + j) =
      (lane k).getD j unlistedByte :=
  Memory.read_writeLanes_lane m dst stride lane _ (fun k _ => hl k) k j (List.mem_range.mpr hk) hj

/-- The two cells of group `k` after UNPACK12 (R102). -/
theorem unpackResult_cells (m : Memory) (l : Latched) (k : Nat) (hk : k < l.len.toNat / 3) :
    Memory.readCell (unpackResult m l) (l.dst.toNat + 4 * k) =
        unpackFirst (Memory.read m (l.src.toNat + 3 * k)) (Memory.read m (l.src.toNat + 3 * k + 1)) ∧
      Memory.readCell (unpackResult m l) (l.dst.toNat + 4 * k + 2) =
        unpackSecond (Memory.read m (l.src.toNat + 3 * k + 1)) (Memory.read m (l.src.toNat + 3 * k + 2)) := by
  have h := fun j hj => read_lane m l.dst.toNat 4 _ (unpackLane m l.src.toNat) (fun _ => rfl) k j hk hj
  unfold Memory.readCell unpackResult
  have h0 := h 0 (by omega)
  rw [Nat.add_zero] at h0
  rw [h0, h 1 (by omega), h 2 (by omega), h 3 (by omega)]
  exact ⟨cell_of_bytes _, cell_of_bytes _⟩

/-- The three bytes of group `k` after PACK12 (R106). -/
theorem packResult_bytes (m : Memory) (l : Latched) (k : Nat) (hk : k < l.len.toNat / 2) :
    Memory.read (packResult m l) (l.dst.toNat + 3 * k) = packFirst (Memory.readCell m (l.src.toNat + 4 * k)) ∧
      Memory.read (packResult m l) (l.dst.toNat + 3 * k + 1) =
        packSecond (Memory.readCell m (l.src.toNat + 4 * k)) (Memory.readCell m (l.src.toNat + 4 * k + 2)) ∧
      Memory.read (packResult m l) (l.dst.toNat + 3 * k + 2) =
        packThird (Memory.readCell m (l.src.toNat + 4 * k + 2)) := by
  have h := fun j hj => read_lane m l.dst.toNat 3 _ (packLane m l.src.toNat) (fun _ => rfl) k j hk hj
  unfold packResult
  have h0 := h 0 (by omega)
  rw [Nat.add_zero] at h0
  rw [h0, h 1 (by omega), h 2 (by omega)]
  exact ⟨rfl, rfl, rfl⟩

/-- The three cells of pixel `k` after DEBAYER (R123). -/
theorem debayerResult_cells (m : Memory) (l : Latched) (c : CfaPattern) (k : Nat) (hk : k < l.w.toNat * l.h.toNat) :
    let ch := fun colour =>
      channel m l.src.toNat c l.w.toNat l.h.toNat colour (k % l.w.toNat) (k / l.w.toNat)
    Memory.readCell (debayerResult m l c) (l.dst.toNat + 6 * k) = ch .r ∧
      Memory.readCell (debayerResult m l c) (l.dst.toNat + 6 * k + 2) = ch .g ∧
      Memory.readCell (debayerResult m l c) (l.dst.toNat + 6 * k + 4) = ch .b := by
  have h := fun j hj =>
    read_lane m l.dst.toNat 6 _ (debayerLane m l.src.toNat c l.w.toNat l.h.toNat) (fun _ => rfl) k j hk hj
  unfold Memory.readCell debayerResult
  have h0 := h 0 (by omega)
  rw [Nat.add_zero] at h0
  rw [h0, h 1 (by omega), h 2 (by omega), h 3 (by omega), h 4 (by omega), h 5 (by omega)]
  exact ⟨cell_of_bytes _, cell_of_bytes _, cell_of_bytes _⟩

/-- Lane `k` of UNPACK12 reads only the source region (R55, R111). -/
theorem unpackLane_congr {m n : Memory} {src len k : Nat}
    (h : ∀ a, Region.has { start := src, size := len } a = true → Memory.read m a = Memory.read n a) (hk : k < len / 3) :
    unpackLane m src k = unpackLane n src k := by
  unfold unpackLane
  rw [h, h, h] <;> (rw [Region.has_iff]; simp only; omega)

/-- Lane `k` of PACK12 reads only the source region (R55, R111). -/
theorem packLane_congr {m n : Memory} {src len k : Nat}
    (h : ∀ a, Region.has { start := src, size := 2 * len } a = true → Memory.read m a = Memory.read n a)
    (hk : k < len / 2) : packLane m src k = packLane n src k := by
  unfold packLane Memory.readCell
  rw [h, h, h, h] <;> (rw [Region.has_iff]; simp only; omega)

/-- The neighbours of a site, as inequalities of naturals (R124). -/
theorem mem_neighbours (cfa : CfaPattern) (w h : Nat) (c : Colour) (x y x' y' : Nat) :
    (x', y') ∈ neighbours cfa w h c x y ↔
      x' ≤ x + 1 ∧ x ≤ x' + 1 ∧ y' ≤ y + 1 ∧ y ≤ y' + 1 ∧ (x', y') ≠ (x, y) ∧ x' < w ∧ y' < h ∧
        colour cfa x' y' = c := by
  simp only [neighbours, List.mem_filter, List.mem_map, decide_eq_true_eq, around, List.mem_cons, List.not_mem_nil,
    or_false, Prod.mk.injEq, Prod.exists, ne_eq]
  constructor
  · rintro ⟨⟨a, b, ⟨h1, h2⟩, h3, h4⟩, h5, h6, h7⟩
    exact ⟨by omega, by omega, by omega, by omega, by omega, h5, h6, h7⟩
  · rintro ⟨h1, h2, h3, h4, h5, h6, h7, h8⟩
    exact ⟨⟨x' + 1, y' + 1, ⟨by omega, by omega⟩, by omega, by omega⟩, h6, h7, h8⟩

/-- The cell of a site inside the grid lies in the source region (R55, R122). -/
theorem rawCell_congr {m n : Memory} {src w h x y : Nat}
    (hm : ∀ a, Region.has { start := src, size := 2 * w * h } a = true → Memory.read m a = Memory.read n a)
    (hx : x < w) (hy : y < h) : rawCell m src w x y = rawCell n src w x y := by
  have h1 : (y + 1) * w ≤ h * w := Nat.mul_le_mul_right w hy
  have h2 : y * w + x < w * h := by rw [Nat.add_mul, Nat.mul_comm h w] at h1; omega
  have e : 2 * w * h = 2 * (w * h) := Nat.mul_assoc _ _ _
  unfold rawCell Memory.readCell
  rw [hm, hm] <;> (rw [Region.has_iff]; simp only; omega)

/-- A channel of a site inside the grid reads only the source region (R55, R128). -/
theorem channel_congr {m n : Memory} {src w h x y : Nat}
    (hm : ∀ a, Region.has { start := src, size := 2 * w * h } a = true → Memory.read m a = Memory.read n a)
    (hx : x < w) (hy : y < h) (cfa : CfaPattern) (c : Colour) :
    channel m src cfa w h c x y = channel n src cfa w h c x y := by
  unfold channel
  split
  · exact rawCell_congr hm hx hy
  · have e : (neighbours cfa w h c x y).map (fun p => (rawCell m src w p.1 p.2).toNat) =
        (neighbours cfa w h c x y).map (fun p => (rawCell n src w p.1 p.2).toNat) := by
      apply List.map_congr_left
      rintro ⟨a, b⟩ hp
      obtain ⟨_, _, _, _, _, h1, h2, _⟩ := (mem_neighbours ..).mp hp
      rw [rawCell_congr hm h1 h2]
    simp only [e]

/-- Lane `k` of DEBAYER reads only the source region (R55, R128). -/
theorem debayerLane_congr {m n : Memory} {src w h k : Nat}
    (hm : ∀ a, Region.has { start := src, size := 2 * w * h } a = true → Memory.read m a = Memory.read n a)
    (cfa : CfaPattern) (hk : k < w * h) : debayerLane m src cfa w h k = debayerLane n src cfa w h k := by
  have hw : 0 < w := by
    rcases Nat.eq_zero_or_pos w with h0 | h0
    · subst h0; omega
    · exact h0
  have h1 : k % w < w := Nat.mod_lt _ hw
  have h2 : k / w < h := by rw [Nat.div_lt_iff_lt_mul hw, Nat.mul_comm]; exact hk
  unfold debayerLane
  rw [channel_congr hm h1 h2 cfa .r, channel_congr hm h1 h2 cfa .g, channel_congr hm h1 h2 cfa .b]

end Sys2Proof.Machine
end

