-- ==== Sys2Proof/Laws/PerInstr.lean ====
section
/-! SUPPORT. What holds of every command as syntax, one lemma a constructor. -/

namespace Sys2Proof.Laws

/-- The word a command encodes to has no reserved bit set (30_encoding.md R70, R76) and, of the opcode table's bits alone,
decodes to the command. -/
def TableWord.Statement (i : Instr) : Prop :=
  i.wf = true → (encode i).toNat < 64 ∧ decodeTableWord 32 (encode i).toNat = some i

theorem TableWord.nop : TableWord.Statement .nop := fun _ => by decide

theorem TableWord.unpack12 : TableWord.Statement .unpack12 := fun _ => by decide

theorem TableWord.pack12 : TableWord.Statement .pack12 := fun _ => by decide

theorem TableWord.debayer (cfa : CfaPattern) : TableWord.Statement (.debayer cfa) := fun _ => by cases cfa <;> decide

end Sys2Proof.Laws
end

