-- ==== Sys2Proof/Laws/Step.lean ====
section
/-! SUPPORT. What one event can do: a step of a block changes only that block, the memory, the host's last read and the
draws; and what bringing a block into focus does. -/

namespace Sys2Proof.Machine

/-- What every step of the focused block does: it keeps everything of the platform and of the other blocks, keeps memory in
its form and STATUS consistent, and a command that runs afterwards ran before or was found not to race. -/
structure LocalStep (s t : State) : Prop where
  others : t.others = s.others
  busMap : t.busMap = s.busMap
  agenda : t.agenda = s.agenda
  port : t.blk.port = s.blk.port
  wf : Memory.wf s.mem → Memory.wf t.mem
  consistent : s.blk.consistent → t.blk.consistent
  running : t.blk.phase = .busy →
    (s.blk.phase = .busy ∧ t.blk.latched = s.blk.latched) ∨ ∀ b ∈ s.others, t.blk.keepsApart b

theorem LocalStep.refl (s : State) : LocalStep s s :=
  ⟨rfl, rfl, rfl, rfl, id, id, fun h => .inl ⟨h, rfl⟩⟩

/-- A completion step is a step of its block, whatever its command. -/
theorem exec_local {i : Instr} {s t : State} (h : exec i s = .next t) : LocalStep s t := by
  obtain ⟨h1, h2, _, h4⟩ := exec_around h
  obtain ⟨hb, hi, hc⟩ := exec_blk h
  exact ⟨h1, h2, h4, hb.1, exec_wf h, fun _ => hc, fun hp => by rw [hi] at hp; cases hp⟩

theorem raiseError_local (s : State) (e : ErrCode) : LocalStep s (s.raiseError e) :=
  ⟨rfl, rfl, rfl, rfl, id, fun _ => Block.completeError_consistent _ _, fun h => by cases h⟩

/-- A completion step runs the decoded command, or ends a reserved opcode with ILLEGAL_OP (R90, R142). -/
theorem completionStep_next {s t : State} (h : s.completionStep = .next t) :
    (∃ i, decode s.blk.latched.commandWord = .command i ∧ exec i s = .next t) ∨
      (∃ op, decode s.blk.latched.commandWord = .illegal op ∧ t = s.raiseError .illegalOp) := by
  unfold State.completionStep at h
  split at h
  · next i hi => exact .inl ⟨i, hi, h⟩
  · next op hop => exact .inr ⟨op, hop, (Host.Outcome.next.inj h).symm⟩

theorem completionStep_local {s t : State} (h : s.completionStep = .next t) : LocalStep s t := by
  rcases completionStep_next h with ⟨i, _, hi⟩ | ⟨_, _, rfl⟩
  · exact exec_local hi
  · exact raiseError_local s _

theorem engineTurn_local {s t : State} (h : s.engineTurn = .next t) : LocalStep s t := by
  unfold State.engineTurn at h
  split at h
  · exact completionStep_local h
  · cases h; exact LocalStep.refl s

/-- A reset that answers a next state frees the destination of a running command and resets the block (R171). -/
theorem assertReset_next {s t : State} (h : s.assertReset = .next t) : t = s.abandon.resetBlk := by
  unfold State.assertReset at h
  split at h
  · cases h
  · exact (Host.Outcome.next.inj h).symm

theorem abandon_others (s : State) : s.abandon.others = s.others := by unfold State.abandon; split <;> rfl

theorem abandon_busMap (s : State) : s.abandon.busMap = s.busMap := by unfold State.abandon; split <;> rfl

theorem abandon_agenda (s : State) : s.abandon.agenda = s.agenda := by unfold State.abandon; split <;> rfl

theorem abandon_lastRead (s : State) : s.abandon.lastRead = s.lastRead := by unfold State.abandon; split <;> rfl

theorem abandon_blk (s : State) : s.abandon.blk = s.blk := by unfold State.abandon; split <;> rfl

theorem abandon_wf {s : State} (h : Memory.wf s.mem) : Memory.wf s.abandon.mem := by
  unfold State.abandon
  split
  · exact Memory.wf_scramble _ _ h fun a ha => State.admits_lt ha
  · exact h

theorem assertReset_local {s t : State} (h : s.assertReset = .next t) : LocalStep s t := by
  obtain rfl := assertReset_next h
  refine ⟨?_, ?_, ?_, ?_, fun h => abandon_wf h, fun _ => ?_, fun h => ?_⟩
  · exact abandon_others s
  · exact abandon_busMap s
  · exact abandon_agenda s
  · simp [abandon_blk]
  · rw [State.resetBlk_blk]; exact Block.afterReset_consistent _ _
  · simp at h

theorem Block.writeReg_port (b : Block) (r : Reg) (v : Word) : (b.writeReg r v).port = b.port := by
  cases r <;> try rfl
  unfold Block.writeReg Block.writeCtrl
  dsimp only
  split
  · split <;> rfl
  · rfl

/-- A register write leaves a running command running on its latched parameters (R31, R88, R94). -/
theorem Block.writeReg_busy {b : Block} (h : b.phase = .busy) (r : Reg) (v : Word) :
    (b.writeReg r v).phase = .busy ∧ (b.writeReg r v).latched = b.latched := by
  cases r <;> try exact ⟨h, rfl⟩
  unfold Block.writeReg Block.writeCtrl
  dsimp only
  split
  · rw [h]; exact ⟨rfl, rfl⟩
  · exact ⟨h, rfl⟩

/-- A read of the window returns a value and changes at most what the host knows of the block (R63, R85). -/
theorem readWindow_next {s t : State} {off : Nat} (h : s.readWindow off = .next t) :
    ∃ d, t = s.setLastRead d ∨ ∃ r, t = (s.setBlk (s.blk.afterRead r)).setLastRead d := by
  unfold State.readWindow at h
  split at h
  · exact ⟨_, .inr ⟨_, (Host.Outcome.next.inj h).symm⟩⟩
  · exact ⟨_, .inl (Host.Outcome.next.inj h).symm⟩

theorem setLastRead_local (s : State) (d : Datum) : LocalStep s (s.setLastRead d) :=
  ⟨rfl, rfl, rfl, rfl, id, id, fun h => .inl ⟨h, rfl⟩⟩

/-- A write to the window that answers a next state writes one register, or nothing; a GO it gives was found not to race
(R34, R69, R85). -/
theorem writeWindow_next {s t : State} {off : Nat} {v : Word} (h : s.writeWindow off v = .next t) :
    t = s ∨ ∃ r, t = s.setBlk (s.blk.writeReg r v) ∧
      (s.blk.phase = .idle → t.blk.phase = .busy → t.racesOthers = false) := by
  unfold State.writeWindow at h
  split at h
  · next r _ =>
    dsimp only at h
    split at h
    · cases h
    · next hr =>
      obtain rfl := (Host.Outcome.next.inj h).symm
      refine .inr ⟨r, rfl, fun h1 h2 => ?_⟩
      simp only [Bool.and_eq_true, Bool.not_eq_true', Block.busy_iff, Block.not_busy_iff, not_and,
        Bool.not_eq_true] at hr
      exact hr ⟨h1, h2⟩
  · exact .inl (Host.Outcome.next.inj h).symm

theorem racesOthers_eq_false {s : State} (h : s.racesOthers = false) : ∀ b ∈ s.others, s.blk.keepsApart b := by
  intro b hb _ hp
  simp only [State.racesOthers, List.any_eq_false, Bool.and_eq_true, not_and, Bool.not_eq_true] at h
  exact h b hb (Block.busy_iff b |>.mpr hp)

theorem accessWindow_local {s t : State} {a : HostAccess} (h : s.accessWindow a = .next t) : LocalStep s t := by
  unfold State.accessWindow at h
  dsimp only at h
  split at h
  · split at h
    · obtain ⟨d, rfl | ⟨r, rfl⟩⟩ := readWindow_next h
      · exact setLastRead_local s d
      · refine ⟨rfl, rfl, rfl, ?_, id, fun hc => Block.afterRead_consistent hc r, fun hp => .inl ?_⟩
        all_goals simp only [State.setLastRead_blk, State.setBlk_blk, Block.afterRead_eq] at *
        exact ⟨hp, trivial⟩
    · rcases writeWindow_next h with rfl | ⟨r, rfl, hr⟩
      · exact LocalStep.refl _
      · refine ⟨rfl, rfl, rfl, Block.writeReg_port _ _ _, id, fun hc => Block.writeReg_consistent hc _ _, fun hp => ?_⟩
        cases hs : s.blk.phase with
        | busy => exact .inl ⟨rfl, (Block.writeReg_busy hs r _).2⟩
        | idle => exact .inr (racesOthers_eq_false (hr hs hp))
    · cases h
  · cases h

/-- A host access to memory that answers a next state reads, or writes its bytes inside the address space, and races with no
running command (R61). -/
theorem accessHostMemory_next {s t : State} {a : HostAccess} (h : s.accessHostMemory a = .next t) :
    a.region.start + a.region.size ≤ addressSpace ∧ ((s.blk :: s.others).any fun b => b.races a) = false ∧
      ((∃ addr w, a = .read addr w ∧ t = s.setLastRead (Memory.readDatum s.mem addr.toNat w)) ∨
        ∃ addr d, a = .write addr d ∧ t = s.setMem (Memory.writeBytes s.mem addr.toNat d.toBytes)) := by
  unfold State.accessHostMemory at h
  split at h
  · cases h
  · next h1 =>
    split at h
    · cases h
    · split at h
      · cases h
      · split at h
        · cases h
        · next hr =>
          refine ⟨by omega, by simpa only [Bool.not_eq_true] using hr, ?_⟩
          split at h
          · exact .inl ⟨_, _, rfl, (Host.Outcome.next.inj h).symm⟩
          · exact .inr ⟨_, _, rfl, (Host.Outcome.next.inj h).symm⟩

theorem Datum.toBytes_length (d : Datum) : d.toBytes.length = d.width.bytes := by cases d <;> rfl

theorem accessHostMemory_local {s t : State} {a : HostAccess} (h : s.accessHostMemory a = .next t) : LocalStep s t := by
  obtain ⟨hs, _, ⟨addr, w, rfl, rfl⟩ | ⟨addr, d, rfl, rfl⟩⟩ := accessHostMemory_next h
  · exact setLastRead_local s _
  · refine ⟨rfl, rfl, rfl, rfl, fun hm => Memory.wf_writeBytes hm ?_, id, fun h => .inl ⟨h, rfl⟩⟩
    rw [Datum.toBytes_length]; exact hs

theorem mapNext_next {f : State → State} {o : Host.Outcome State Fault Refusal} {t : State} (h : mapNext f o = .next t) :
    ∃ u, o = .next u ∧ t = f u := by
  cases o with
  | next u => exact ⟨u, rfl, (Host.Outcome.next.inj h).symm⟩
  | fault r => cases h
  | refused r => cases h

/-- A step of block `k` that answers a next state: the block's own step, in focus or brought into it. -/
theorem onBlock_next {s t : State} {k : Nat} {f : State → Host.Outcome State Fault Refusal} (h : s.onBlock k f = .next t) :
    (k = 0 ∧ f s = .next t) ∨
      ∃ j u, k = j + 1 ∧ j < s.others.length ∧ f (s.swap j) = .next u ∧ t = u.swap j := by
  cases k with
  | zero => exact .inl ⟨rfl, h⟩
  | succ j =>
    simp only [State.onBlock] at h
    split at h
    · next hj =>
      obtain ⟨u, hu, rfl⟩ := mapNext_next h
      exact .inr ⟨j, u, rfl, hj, hu, rfl⟩
    · cases h

theorem swap_eq {s : State} {k : Nat} (h : k < s.others.length) :
    s.swap k = { s with blk := s.others[k], others := s.others.set k s.blk } := by
  simp [State.swap, h]

@[simp] theorem State.swap_busMap (s : State) (k : Nat) : (s.swap k).busMap = s.busMap := by
  unfold State.swap; split <;> rfl

@[simp] theorem State.swap_mem (s : State) (k : Nat) : (s.swap k).mem = s.mem := by
  unfold State.swap; split <;> rfl

@[simp] theorem State.swap_lastRead (s : State) (k : Nat) : (s.swap k).lastRead = s.lastRead := by
  unfold State.swap; split <;> rfl

@[simp] theorem State.swap_agenda (s : State) (k : Nat) : (s.swap k).agenda = s.agenda := by
  unfold State.swap; split <;> rfl

@[simp] theorem State.swap_draws (s : State) (k : Nat) : (s.swap k).draws = s.draws := by
  unfold State.swap; split <;> rfl

/-- An access races with a command when it shares a byte with the destination, or writes one of the source (R61). -/
theorem Latched.races_iff {l : Latched} {a : HostAccess} :
    l.races a = true ↔
      ∃ x, a.region.has x = true ∧ (l.regions.dst.has x = true ∨ (a.kind = .write ∧ l.regions.src.has x = true)) := by
  simp only [Latched.races, Bool.or_eq_true, Bool.and_eq_true, beq_iff_eq, Region.overlaps_iff_share]
  constructor
  · rintro (⟨x, h1, h2⟩ | ⟨hk, x, h1, h2⟩)
    · exact ⟨x, h1, .inl h2⟩
    · exact ⟨x, h1, .inr ⟨hk, h2⟩⟩
  · rintro ⟨x, h1, h2 | ⟨hk, h2⟩⟩
    · exact .inl ⟨x, h1, h2⟩
    · exact .inr ⟨hk, x, h1, h2⟩

/-- An access races with a block when it races with its running command or with one the host has not observed (R61, R176). -/
theorem Block.races_iff {b : Block} {a : HostAccess} :
    b.races a = true ↔ ∃ l, ((b.phase = .busy ∧ l = b.latched) ∨ l ∈ b.unobserved) ∧ l.races a = true := by
  simp only [Block.races, Bool.or_eq_true, Bool.and_eq_true, Block.busy_iff, List.any_eq_true]
  constructor
  · rintro (⟨h, hr⟩ | ⟨l, hl, hr⟩)
    · exact ⟨_, .inl ⟨h, rfl⟩, hr⟩
    · exact ⟨l, .inr hl, hr⟩
  · rintro ⟨l, ⟨h, rfl⟩ | hl, hr⟩
    · exact .inl ⟨h, hr⟩
    · exact .inr ⟨l, hl, hr⟩

/-- Taking an interrupt changes only what the host knows: the invariant holds after it if it held before (R63). -/
theorem takeLine_inv {s : State} (h : s.Inv) (l : Nat) : (s.takeLine l).Inv := by
  obtain ⟨h1, h2, h3⟩ := h
  have e : (s.takeLine l).blocks = s.blocks.map (Block.taken l) := rfl
  refine ⟨h1, ?_, ?_⟩
  · rw [e]; intro b hb
    obtain ⟨c, hc, rfl⟩ := List.mem_map.mp hb
    exact Block.taken_consistent (h2 c hc) l
  · rw [e, List.pairwise_map]
    refine h3.imp fun {a b} hab => ?_
    simp only [Block.keepsApart, Block.taken_eq] at *
    exact hab

/-- Taking an interrupt leaves the configuration alone (R10). -/
theorem takeLine_platform (s : State) (l : Nat) : (s.takeLine l).platform = s.platform := by
  simp [State.platform, Block.taken_eq, Function.comp_def]

/-- Changing focus twice changes nothing. -/
theorem swap_swap (s : State) (k : Nat) : (s.swap k).swap k = s := by
  by_cases h : k < s.others.length
  · rw [swap_eq h, swap_eq (by simpa using h)]
    simp
  · have : s.swap k = s := by simp [State.swap, h]
    rw [this, this]

/-- Bringing block `k + 1` into focus. -/
theorem swap_of {s : State} {k : Nat} {b : Block} (h : s.others[k]? = some b) :
    s.swap k = { s with blk := b, others := s.others.set k s.blk } := by simp [State.swap, h]

/-- Replacing the block brought into focus, and changing focus back, replaces it in its place. -/
theorem swap_back {s : State} {k : Nat} {b : Block} (h : s.others[k]? = some b) (c : Block) :
    ((s.swap k).setBlk c).swap k = { s with others := s.others.set k c } := by
  obtain ⟨hl, rfl⟩ := List.getElem?_eq_some_iff.mp h
  rw [swap_of h]; simp [State.swap, State.setBlk, hl]

/-- Changing focus lists the same blocks in another order. -/
theorem swap_perm (s : State) (k : Nat) : (s.swap k).blocks.Perm s.blocks := by
  by_cases h : k < s.others.length
  · rw [swap_eq h]
    simp only [State.blocks]
    have e : s.others = s.others.take k ++ s.others[k] :: s.others.drop (k + 1) := by
      rw [List.getElem_cons_drop, List.take_append_drop]
    have e2 : s.others.set k s.blk = s.others.take k ++ s.blk :: s.others.drop (k + 1) :=
      List.set_eq_take_append_cons_drop .. |>.trans (if_pos h)
    rw [e2]
    conv => rhs; rw [e]
    refine (List.Perm.cons _ List.perm_middle).trans (.trans (List.Perm.swap _ _ _) ?_)
    exact List.Perm.cons _ List.perm_middle.symm
  · have : s.swap k = s := by simp [State.swap, h]
    rw [this]

/-- What every event does to the parts that only the platform, or the agenda, decides. -/
theorem onBlock_local {s t : State} {k : Nat} {f : State → Host.Outcome State Fault Refusal}
    (hf : ∀ {u v : State}, f u = .next v → LocalStep u v) (h : s.onBlock k f = .next t) :
    (k = 0 ∧ LocalStep s t) ∨ ∃ j u, k = j + 1 ∧ j < s.others.length ∧ LocalStep (s.swap j) u ∧ t = u.swap j := by
  rcases onBlock_next h with ⟨hk, h⟩ | ⟨j, u, hk, hj, hu, rfl⟩
  · exact .inl ⟨hk, hf h⟩
  · exact .inr ⟨j, u, hk, hj, hf hu, rfl⟩

/-- A host access that answers a next state went to one block's window or to memory (R85, R86). -/
theorem hostAccess_next {s t : State} {a : HostAccess} (h : s.hostAccess a = .next t) :
    (∃ k, s.windowTouched a = some k ∧ s.onBlock k (fun u => u.accessWindow a) = .next t) ∨
      (s.windowTouched a = none ∧ s.accessHostMemory a = .next t) := by
  unfold State.hostAccess at h
  split at h
  · next k hk => exact .inl ⟨k, hk, h⟩
  · next hk => exact .inr ⟨hk, h⟩

end Sys2Proof.Machine
end

