-- ==== Sys2Proof/Laws/Window.lean ====
section
/-! SUPPORT. A 32-bit host access at a multiple-of-4 offset of a block's window is a read, or a write, of the register at that
offset: of the focused block, and of any other block on a platform whose windows share no byte. -/

namespace Sys2Proof.Machine

theorem Reg.offset_fits (r : Reg) : r.offset + 4 ≤ 64 ∧ r.offset % 4 = 0 := by cases r <;> decide

@[simp] theorem Reg.ofOffset_offset (r : Reg) : Reg.ofOffset r.offset = some r := by cases r <;> decide

theorem windowTouched_focus {s : State} {a : HostAccess} (h : s.blk.window.overlaps a.region = true) :
    s.windowTouched a = some 0 := by
  simp [State.windowTouched, List.findIdx?_cons, h]

theorem windowTouched_none {s : State} {a : HostAccess} (h : ∀ b ∈ s.blocks, b.window.overlaps a.region = false) :
    s.windowTouched a = none := by
  unfold State.windowTouched
  rw [List.findIdx?_eq_none_iff]; exact h

theorem toNat_base_add {b : Word} {n : Nat} (hb : b.toNat + windowBytes ≤ addressSpace) (hn : n < 64) :
    (b + BitVec.ofNat 32 n).toNat = b.toNat + n := by
  simp only [windowBytes, addressSpace] at hb
  simp; omega

/-- A read at an offset of the focused block's window (R85). -/
theorem accessWindow_read {s : State} {n : Nat} (hb : s.blk.port.base.toNat + windowBytes ≤ addressSpace)
    (hn : n + 4 ≤ 64) (h4 : n % 4 = 0) :
    s.accessWindow (.read (s.blk.port.base + BitVec.ofNat 32 n) .word) = s.readWindow n := by
  have ha := toNat_base_add hb (show n < 64 by omega)
  simp only [State.accessWindow, Block.window, HostAccess.region, ha, windowBytes, Nat.add_sub_cancel_left]
  exact if_pos (by omega)

/-- A write at an offset of the focused block's window (R85). -/
theorem accessWindow_write {s : State} {n : Nat} (v : Word) (hb : s.blk.port.base.toNat + windowBytes ≤ addressSpace)
    (hn : n + 4 ≤ 64) (h4 : n % 4 = 0) :
    s.accessWindow (.write (s.blk.port.base + BitVec.ofNat 32 n) (.word v)) = s.writeWindow n v := by
  have ha := toNat_base_add hb (show n < 64 by omega)
  simp only [State.accessWindow, Block.window, HostAccess.region, ha, windowBytes, Nat.add_sub_cancel_left,
    Datum.width, AccessWidth.bytes]
  exact if_pos (by omega)

/-- A read of the window at an offset (R85). -/
theorem hostAccess_read_offset {s : State} {n : Nat} (hb : s.blk.port.base.toNat + windowBytes ≤ addressSpace)
    (hn : n + 4 ≤ 64) (h4 : n % 4 = 0) :
    s.hostAccess (.read (s.blk.port.base + BitVec.ofNat 32 n) .word) = s.readWindow n := by
  unfold State.hostAccess
  rw [windowTouched_focus (by
    rw [Region.overlaps_iff]
    simp only [Block.window, HostAccess.region, toNat_base_add hb (show n < 64 by omega), windowBytes,
      AccessWidth.bytes]
    omega)]
  exact accessWindow_read hb hn h4

/-- A write of the window at an offset (R85). -/
theorem hostAccess_write_offset {s : State} {n : Nat} (v : Word)
    (hb : s.blk.port.base.toNat + windowBytes ≤ addressSpace) (hn : n + 4 ≤ 64) (h4 : n % 4 = 0) :
    s.hostAccess (.write (s.blk.port.base + BitVec.ofNat 32 n) (.word v)) = s.writeWindow n v := by
  unfold State.hostAccess
  rw [windowTouched_focus (by
    rw [Region.overlaps_iff]
    simp only [Block.window, HostAccess.region, toNat_base_add hb (show n < 64 by omega), windowBytes,
      AccessWidth.bytes, Datum.width]
    omega)]
  exact accessWindow_write v hb hn h4

/-- A read of a register's offset returns the register; one of STATUS may observe completion (R63, R85). -/
theorem readWindow_offset (s : State) (r : Reg) :
    s.readWindow r.offset = .next ((s.setBlk (s.blk.afterRead r)).setLastRead (.word (s.blk.readReg r))) := by
  simp [State.readWindow]

theorem Block.writeReg_phase {b : Block} {r : Reg} (h : r ≠ .ctrl) (v : Word) : (b.writeReg r v).phase = b.phase := by
  cases r <;> first | rfl | exact absurd rfl h

/-- A write of a register's offset other than CTRL's writes the register (R85, R94). -/
theorem writeWindow_offset {s : State} {r : Reg} (h : r ≠ .ctrl) (v : Word) :
    s.writeWindow r.offset v = .next (s.setBlk (s.blk.writeReg r v)) := by
  simp only [State.writeWindow, Reg.ofOffset_offset, State.setBlk_blk, Block.busy, Block.writeReg_phase h]
  cases s.blk.phase <;> simp

/-! ### The windows of the other blocks -/

/-- On a well-formed platform every window lies in the address space (R22, R50). -/
theorem port_fits {s : State} (h : s.platform.wf = true) {b : Block} (hb : b ∈ s.blocks) :
    b.port.base.toNat + windowBytes ≤ addressSpace := by
  simp only [Platform.wf, Bool.and_eq_true, List.all_eq_true] at h
  have := h.1.1 b.port (by
    simp only [Platform.ports, State.platform]
    rcases List.mem_cons.mp hb with rfl | hb
    · exact .head _
    · exact .tail _ (List.mem_map_of_mem hb))
  simpa [Port.inSpace] using this

/-- On a well-formed platform the windows share no byte (R159). -/
theorem windows_pairwise {s : State} (h : s.platform.wf = true) :
    s.blocks.Pairwise fun b c => b.port.apart c.port := by
  simp only [Platform.wf, Bool.and_eq_true, decide_eq_true_eq] at h
  have := h.1.2
  rw [show s.platform.ports = s.blocks.map Block.port from rfl, List.pairwise_map] at this
  exact this

/-- An access inside the window of block `k + 1` touches that window first (R159). -/
theorem windowTouched_other {s : State} (h : s.platform.wf = true) {k : Nat} {b : Block} (hk : s.others[k]? = some b)
    {a : HostAccess} (ha : ∀ x, a.region.has x = true → b.window.has x = true) (hn : 0 < a.region.size) :
    s.windowTouched a = some (k + 1) := by
  have hp := windows_pairwise h
  obtain ⟨hl, rfl⟩ := List.getElem?_eq_some_iff.mp hk
  have h1 := ha a.region.start (by rw [Region.has_iff]; omega)
  have h2 := ha (a.region.start + a.region.size - 1) (by rw [Region.has_iff]; omega)
  rw [Region.has_iff] at h1 h2
  unfold State.windowTouched
  rw [List.findIdx?_eq_some_iff_getElem]
  refine ⟨by simpa using hl, ?_, fun j hj => ?_⟩
  · rw [Region.overlaps_iff]
    simp only [List.getElem_cons_succ, Block.window, windowBytes] at *
    omega
  · have hap := List.pairwise_iff_getElem.mp hp j (k + 1) (by simp; omega) (by simpa using hl) hj
    simp only [Port.apart, decide_eq_true_eq, List.getElem_cons_succ, State.blocks] at hap
    rw [Bool.not_eq_true, ← Bool.not_eq_true, Region.overlaps_iff]
    simp only [Block.window, windowBytes] at *
    omega

/-- An access inside the window of block `k + 1` is that block's access of its own window (R159). -/
theorem hostAccess_other {s : State} (h : s.platform.wf = true) {k : Nat} {b : Block} (hk : s.others[k]? = some b)
    {a : HostAccess} (ha : ∀ x, a.region.has x = true → b.window.has x = true) (hn : 0 < a.region.size) :
    s.hostAccess a = mapNext (fun t => t.swap k) ((s.swap k).accessWindow a) := by
  obtain ⟨hl, _⟩ := List.getElem?_eq_some_iff.mp hk
  unfold State.hostAccess
  rw [windowTouched_other h hk ha hn]
  exact if_pos hl

/-- A 32-bit access at an offset lies inside the window. -/
theorem touches_within {b : Block} {n : Nat} (hb : b.port.base.toNat + windowBytes ≤ addressSpace) (hn : n + 4 ≤ 64) :
    ∀ x, ({ start := (b.port.base + BitVec.ofNat 32 n).toNat, size := 4 } : Region).has x = true →
      b.window.has x = true := by
  intro x hx
  rw [toNat_base_add hb (by omega)] at hx
  rw [Region.has_iff] at hx ⊢
  simp only [Block.window, windowBytes] at *
  omega

/-- A host read at a register of block `k + 1` returns it; one of STATUS may observe that block (R63, R85). -/
theorem hostAccess_read_other {s : State} (h : s.platform.wf = true) {k : Nat} {b : Block} (hk : s.others[k]? = some b)
    (r : Reg) :
    s.hostAccess (.read (r.address b.port.base) .word) =
      .next { s with others := s.others.set k (b.afterRead r), lastRead := some (.word (b.readReg r)) } := by
  have hb := port_fits h (List.mem_cons_of_mem _ (List.mem_of_getElem? hk))
  have hs : (s.swap k).blk = b := by rw [swap_of hk]
  rw [Reg.address, hostAccess_other h hk (a := .read _ .word) (touches_within hb r.offset_fits.1)
    (by simp [HostAccess.region, AccessWidth.bytes])]
  subst hs
  rw [accessWindow_read hb r.offset_fits.1 r.offset_fits.2, readWindow_offset]
  have hl : ∀ (u : State) d, (u.setLastRead d).swap k = (u.swap k).setLastRead d := by
    intro u d; unfold State.swap State.setLastRead; dsimp only; split <;> rfl
  simp only [mapNext, hl, swap_back hk]
  rfl

/-- A host write at a register of block `k + 1` is that block's write of its own window. -/
theorem hostAccess_write_other {s : State} (h : s.platform.wf = true) {k : Nat} {b : Block} (hk : s.others[k]? = some b)
    (r : Reg) (v : Word) :
    s.hostAccess (.write (r.address b.port.base) (.word v)) =
      mapNext (fun t => t.swap k) ((s.swap k).writeWindow r.offset v) := by
  have hb := port_fits h (List.mem_cons_of_mem _ (List.mem_of_getElem? hk))
  have hs := swap_of hk
  rw [Reg.address, hostAccess_other h hk (a := .write _ (.word v)) (touches_within hb r.offset_fits.1)
    (by simp [HostAccess.region, Datum.width, AccessWidth.bytes])]
  have : b = (s.swap k).blk := by rw [hs]
  subst this
  rw [accessWindow_write v hb r.offset_fits.1 r.offset_fits.2]

end Sys2Proof.Machine
end

