-- ==== Sys2Proof/Tests/Slice0.lean ====
section
/-! SUPPORT. The model's own tests: the spec's vectors (95_test_vectors.md), words written out bit by bit from the encoding
tables, ill-formed terms, and a witness for the hypotheses of each statement that has some. -/

namespace Sys2Proof.Tests

open Sys2Proof.Machine

/-! ### Small states -/

/-- The reset machine with block 0 running a command on these latched parameters. -/
def running (op : BitVec 4) (src dst len w h : Word) (m : Memory) : State :=
  { State.reset with
    blk :=
      { State.reset.blk with
        phase := .busy
        latched := { op := op, cfa := 0#2, src := src, dst := dst, len := len, w := w, h := h }
        unobserved := [{ op := op, cfa := 0#2, src := src, dst := dst, len := len, w := w, h := h }] }
    mem := m }

/-- Bytes in memory from an address. -/
def bytesAt (a : Nat) (bs : List Byte) : Memory := Memory.writeBytes [] a bs

/-- Cells in memory from an address. -/
def cellsAt (a : Nat) (cs : List Cell) : Memory := Memory.writeBytes [] a (cs.flatMap cellBytes)

/-- The bytes an outcome leaves from an address, its STATUS word and its OUT_COUNT. -/
def shows (o : Host.Outcome State Fault Refusal) (a n : Nat) : Option (List Byte × Word × Word) :=
  match o with
  | .next t => some ((List.range n).map fun i => Memory.read t.mem (a + i), t.blk.statusWord, t.blk.outCount)
  | _ => none

/-- The STATUS word an outcome leaves. -/
def statusOf (o : Host.Outcome State Fault Refusal) : Option Word :=
  match o with
  | .next t => some t.blk.statusWord
  | _ => none

/-- The cells an outcome leaves from an address. -/
def cellsOf (o : Host.Outcome State Fault Refusal) (a n : Nat) : List Nat :=
  match o with
  | .next t => (List.range n).map fun i => (Memory.readCell t.mem (a + 2 * i)).toNat
  | _ => []

/-- The refusal an outcome is, if it is one. -/
def refusalOf (o : Host.Outcome State Fault Refusal) : Option Refusal :=
  match o with
  | .refused r => some r
  | _ => none

/-- The machine with one event on the agenda. -/
def facing (s : State) (e : Event) : State := s.setAgenda [e]

/-- The base of the reset machine's window. -/
def base : Word := 0x40000000#32

/-- A second block, idle, with its window above the first. -/
def second : Block := Block.afterReset { base := 0x40000040#32, irqRoute := 1 } Latched.zero

/-- The reset machine with that second block. -/
def twoBlocks : State := { State.reset with others := [second] }

/-! ### Encoding: words written out from R70 and R72, bits 31 down to 0 -/

theorem test_nop_word : decode 0b00000000000000000000000000000000#32 = .command .nop := by decide

theorem test_unpack12_word : decode 0b00000000000000000000000000000001#32 = .command .unpack12 := by decide

theorem test_pack12_word : decode 0b00000000000000000000000000000010#32 = .command .pack12 := by decide

theorem test_debayer_rggb_word : decode 0b00000000000000000000000000000011#32 = .command (.debayer .rggb) := by decide

theorem test_debayer_bggr_word : decode 0b00000000000000000000000000010011#32 = .command (.debayer .bggr) := by decide

theorem test_debayer_grbg_word : decode 0b00000000000000000000000000100011#32 = .command (.debayer .grbg) := by decide

theorem test_debayer_gbrg_word : decode 0b00000000000000000000000000110011#32 = .command (.debayer .gbrg) := by decide

theorem test_reserved_word : decode 0b00000000000000000000000000110100#32 = .illegal 4#4 := by decide

/-! ### Well-formedness, with an ill-formed term for each check -/

theorem test_simple_platform_wf : Platform.simple.wf = true := by decide

theorem test_port_past_top : { base := 0xFFFFFFC1#32, irqRoute := 0 : Port }.inSpace = false := by decide

theorem test_windows_meet :
    { Platform.simple with otherPorts := [{ base := 0x4000003F#32, irqRoute := 0 }] }.wf = false := by decide

theorem test_range_past_top :
    { Platform.simple with
      busMap := [{ base := 1, size := addressSpace, admitsRead := true, admitsWrite := true, device := false }] }.wf = false := by
  decide

theorem test_mem16_odd : (HostLine.mem16 0x1001#32 [0#16]).wf = false := by decide

theorem test_mem8_past_top : (HostLine.mem8 0xFFFFFFFF#32 [0#8, 0#8]).wf = false := by decide

theorem test_debayer_wf : (Instr.debayer .gbrg).wf = true := by decide

/-! ### Commands: vectors G12, U1, U14, K1, K10, D1, D5, E8 of 95_test_vectors.md -/

theorem test_nop_ignores_odd_addresses :
    shows (exec .nop (running 0#4 1#32 1#32 0#32 0#32 0#32 [])) 1 1 = some ([0#8], 0x2#32, 0#32) := by decide

theorem test_unpack12_u1 :
    shows (exec .unpack12 (running 1#4 0x1000#32 0x2000#32 3#32 0#32 0#32 (bytesAt 0x1000 [0x12#8, 0x34#8, 0x56#8])))
      0x2000 4 = some ([0x23#8, 0x01#8, 0x56#8, 0x04#8], 0x2#32, 2#32) := by decide

theorem test_unpack12_u14_odd_destination :
    statusOf (exec .unpack12 (running 1#4 0x1000#32 0x2001#32 3#32 0#32 0#32 [])) = some 0x44#32 := by decide

theorem test_pack12_k1 :
    shows (exec .pack12 (running 2#4 0x3000#32 0x3100#32 2#32 0#32 0#32 (cellsAt 0x3000 [0x0123#16, 0x0456#16])))
      0x3100 3 = some ([0x12#8, 0x34#8, 0x56#8], 0x2#32, 3#32) := by decide

theorem test_pack12_k10_sample_range :
    statusOf (exec .pack12 (running 2#4 0x3000#32 0x3100#32 2#32 0#32 0#32 (cellsAt 0x3000 [0x1000#16, 0#16]))) =
      some 0x24#32 := by decide

theorem test_debayer_d1_rggb :
    cellsOf (exec (.debayer .rggb) (running 3#4 0x4000#32 0x5000#32 0#32 2#32 2#32
      (cellsAt 0x4000 [100#16, 200#16, 300#16, 400#16]))) 0x5000 12 =
      [100, 250, 400, 100, 200, 400, 100, 300, 400, 100, 250, 400] := by decide +kernel

theorem test_debayer_d7_grbg_odd_width :
    cellsOf (exec (.debayer .grbg) (running 3#4 0x4000#32 0x5000#32 0#32 3#32 2#32
      (cellsAt 0x4000 [1#16, 2#16, 3#16, 4#16, 5#16, 6#16]))) 0x5000 18 =
      [2, 1, 4, 2, 3, 5, 2, 3, 6, 2, 3, 4, 2, 5, 5, 2, 4, 6] := by decide +kernel

/-- E8: a destination on the block's own window. -/
theorem test_own_window_is_bus_error :
    statusOf (exec .pack12 (running 2#4 0x3000#32 base 2#32 0#32 0#32 (cellsAt 0x3000 [0x0123#16, 0x0456#16]))) =
      some 0x84#32 := by decide

/-! ### The step, the window, the host: vectors G2, G16, G20, P5 -/

theorem test_placed_word_runs : statusOf (step (State.reset.withFetchWord 32 0x33)) = some 0x74#32 := by decide

theorem test_write_cmd_keeps_six_bits :
    (State.reset.blk.writeReg .cmd 0xFFFFFFFF#32).readReg .cmd = 0x3F#32 := by decide

theorem test_clear_err_clears_code :
    ((State.reset.blk.completeError .malformedLength).writeReg .status 0x4#32).statusWord = 0#32 := by decide

theorem test_second_go_is_ignored :
    statusOf (Host.Core.run core 2
      ((State.reset.setBlk State.reset.blk.start).setAgenda [wrEvent base .ctrl 1#32])) = some 0x0A#32 := by decide

/-- R150: a host that waits for line 0 goes on once block 0's enabled interrupt is asserted. -/
theorem test_interrupt_ends_wait :
    let b := { (running 0#4 0#32 0#32 0#32 0#32 0#32 []).blk with doneIe := true }
    let s := facing (State.reset.setBlk b) (.takeIrq 0)
    s.irqLine 0 = false ∧ statusOf (Host.Core.run core 3 s) = some 0x2#32 := by decide

/-- R80, R81: `debayer` expands to six writes; the fifth is the command word of the pattern. -/
theorem test_debayer_expansion :
    (HostLine.events base (.debayer 0x5000#32 0x4000#32 2#32 3#32 .gbrg))[4]? =
      some (.bus (.write 0x40000000#32 (.word 0x33#32))) := by decide

/-! ### Witnesses: each shows a state and operands that meet a statement's hypotheses -/

theorem witness_reserved_opcode : 4 ≤ (running 15#4 0#32 0#32 0#32 0#32 0#32 []).blk.latched.op.toNat := by decide

theorem witness_reserved_word : 4 ≤ ((0x4#32 : Word).extractLsb' 0 4).toNat := by decide

theorem witness_engine_turn :
    (facing (running 3#4 0#32 0#32 0#32 0#32 0#32 []) (.engine 0)).agenda = .engine 0 :: [] ∧
      (running 3#4 0#32 0#32 0#32 0#32 0#32 []).blk.phase = .busy ∧
        decode (running 3#4 0#32 0#32 0#32 0#32 0#32 []).blk.latched.commandWord = .command (.debayer .rggb) := by decide

theorem witness_unattended : (running 0#4 0#32 0#32 0#32 0#32 0#32 []).agenda = [] ∧
    (∃ b ∈ (running 0#4 0#32 0#32 0#32 0#32 0#32 []).blocks, b.phase = .busy) ∧
    statusOf (step (running 0#4 0#32 0#32 0#32 0#32 0#32 [])) = some 2#32 := by decide

theorem witness_other_engine_turn :
    let s := { State.reset with others := [second.start], agenda := [.engine 1] }
    s.others[0]? = some second.start ∧ second.start.phase = .busy ∧
      decode second.start.latched.commandWord = .command .nop ∧ statusOf (step s) = some 0#32 := by decide

/-- A reserved opcode latched in block 0, at its turn and unattended, and in the second block at its turn. -/
theorem witness_reserved_turns :
    let s := running 4#4 0#32 0#32 0#32 0#32 0#32 []
    let u := { twoBlocks with others := [{ second.start with latched := { Latched.zero with op := 15#4 } }] }
    decode s.blk.latched.commandWord = .illegal 4#4 ∧ statusOf (step (facing s (.engine 0))) = some 0x34#32 ∧
      s.agenda = [] ∧ statusOf (step s) = some 0x34#32 ∧
        (∃ b ∈ u.others, b.phase = .busy ∧ decode b.latched.commandWord = .illegal 15#4) ∧
          statusOf (step (facing u (.engine 1))) = some 0#32 := by decide

theorem witness_placed_word : decode 0x2#32 = .command .pack12 := by decide

theorem witness_idle : State.reset.agenda = [] ∧ (∀ b ∈ State.reset.blocks, b.phase = .idle) := by decide

theorem witness_reset_running :
    let s := facing (running 1#4 0x1000#32 0x2000#32 3#32 0#32 0#32 []) (.reset 0)
    s.blk.phase = .busy ∧ s.blk.latched.accesses = true ∧ s.onDevice s.blk.latched.regions = false ∧
      statusOf (step s) = some 0#32 := by decide

theorem witness_reset_idle : (facing State.reset (.reset 0)).blk.phase = .idle ∧
    statusOf (step (facing State.reset (.reset 0))) = some 0#32 := by decide

theorem witness_window_in_space : State.reset.blk.port.base.toNat + windowBytes ≤ addressSpace := by decide

theorem witness_top_window_in_space : (0xFFFFFFC0#32 : Word).toNat + windowBytes ≤ addressSpace := by decide

theorem witness_read_last_register :
    (facing State.reset (.bus (.read (Reg.outCount.address base) .word))).agenda =
      .bus (.read (Reg.outCount.address State.reset.blk.port.base) .word) :: [] := by decide

theorem witness_write_register :
    (facing State.reset (wrEvent base .height 7#32)).agenda =
      .bus (.write (Reg.height.address State.reset.blk.port.base) (.word 7#32)) :: [] ∧ Reg.height ≠ .ctrl := by decide

theorem witness_second_window : twoBlocks.platform.wf = true ∧ twoBlocks.others[0]? = some second ∧
    (facing twoBlocks (.bus (.write (Reg.len.address second.port.base) (.word 9#32)))).agenda =
      .bus (.write (Reg.len.address 0x40000040#32) (.word 9#32)) :: [] := by decide

/-- GO at the second block's window: its bit clear, the block idle, the block busy, and a race with block 0. -/
theorem witness_second_go :
    let go := fun s : State => step (facing s (wrEvent 0x40000040#32 .ctrl 1#32))
    let busyUnpack := { State.reset.blk with
      phase := .busy, latched := { Latched.zero with op := 1#4, src := 0x2000#32, dst := 0x3000#32, len := 3#32 } }
    let wants := { second with cmd := 1#6, srcAddr := 0x1000#32, dstAddr := 0x2000#32, len := 3#32 }
    twoBlocks.platform.wf = true ∧ (0xFFFFFFFE#32 : Word).getLsbD 0 = false ∧ second.phase = .idle ∧
      (∀ c ∈ twoBlocks.others.set 0 twoBlocks.blk, c.phase = .busy →
        second.parameters.regions.conflict c.latched.regions = false) ∧
      statusOf (go twoBlocks) = some 0#32 ∧ second.start.phase = .busy ∧
      refusalOf (go { twoBlocks with blk := busyUnpack, others := [wants] }) = some .blockRace ∧
      wants.parameters.regions.conflict busyUnpack.latched.regions = true := by decide

theorem witness_unmapped_ends :
    statusOf (step (facing State.reset (.bus (.write (base + BitVec.ofNat 32 (4 * 10)) (.word 1#32))))) = some 0#32 ∧
      statusOf (step (facing State.reset (.bus (.read (base + BitVec.ofNat 32 (4 * 15)) .word)))) = some 0#32 := by decide

theorem witness_narrow_window_access :
    let a := HostAccess.write (base + 63#32) (.byte 0#8)
    State.reset.blk.window.overlaps a.region = true ∧ a.region.size ≠ 4 ∧
      refusalOf (step (facing State.reset (.bus a))) = some .windowAccess := by decide

theorem witness_straddling_window_access :
    let a := HostAccess.read (base - 2#32) .word
    State.reset.blk.window.overlaps a.region = true ∧ a.region.start < State.reset.blk.window.start ∧
      refusalOf (step (facing State.reset (.bus a))) = some .windowAccess := by decide

theorem witness_odd_offset_access :
    let a := HostAccess.read (base + 6#32) .word
    (a.region.start - State.reset.blk.window.start) % 4 ≠ 0 ∧
      refusalOf (step (facing State.reset (.bus a))) = some .windowAccess := by decide

/-- The second block's window: a byte access, a misaligned offset, and an access that straddles the two windows. -/
theorem witness_second_window_refusals :
    twoBlocks.platform.wf = true ∧ second.window.overlaps (HostAccess.read 0x4000007F#32 .byte).region = true ∧
      refusalOf (step (facing twoBlocks (.bus (.read 0x4000007F#32 .byte)))) = some .windowAccess ∧
        refusalOf (step (facing twoBlocks (.bus (.read 0x40000046#32 .word)))) = some .windowAccess ∧
          refusalOf (step (facing twoBlocks (.bus (.read 0x4000003E#32 .word)))) = some .windowAccess := by decide

theorem witness_outside_window :
    (∀ b ∈ State.reset.blocks, b.window.overlaps (HostAccess.read (base + 64#32) .byte).region = false) ∧
      statusOf (step (facing State.reset (.bus (.read (base + 64#32) .byte)))) = some 0#32 := by decide

theorem witness_reserved_bits :
    (0xFFFFFFC1#32 : Word) &&& implementedBits .cmd = 0x1#32 &&& implementedBits .cmd ∧
      (0xFFFFFFFE#32 : Word) &&& implementedBits .ctrl = 0#32 &&& implementedBits .ctrl := by decide

theorem witness_consistent_running : State.reset.blk.start.consistent ∧ State.reset.blk.start.phase = .busy := by decide

theorem witness_go :
    (facing State.reset (wrEvent base .ctrl 1#32)).agenda =
      .bus (.write (Reg.ctrl.address State.reset.blk.port.base) (.word 1#32)) :: [] ∧
      (1#32 : Word).getLsbD 0 = true ∧ State.reset.blk.phase = .idle ∧
        (∀ b ∈ State.reset.others, State.reset.blk.start.keepsApart b) := by decide

theorem witness_go_beside_running :
    (∀ b ∈ { State.reset with others := [second.start] }.others, State.reset.blk.start.keepsApart b) := by decide

theorem witness_go_while_busy :
    statusOf (step (facing (running 0#4 0#32 0#32 0#32 0#32 0#32 []) (wrEvent base .ctrl 1#32))) = some 0x9#32 := by decide

/-- A set GO_IGNORED outlives the completion of the command it met. -/
theorem witness_go_ignored_stays :
    let s := State.reset.setBlk { (running 0#4 0#32 0#32 0#32 0#32 0#32 []).blk with goIgnored := true }
    s.blk.goIgnored = true ∧ statusOf (step s) = some 0xA#32 := by decide

theorem witness_ctrl_without_go : (0xFFFFFFFE#32 : Word).getLsbD 0 = false ∧
    statusOf (step (facing State.reset (wrEvent base .ctrl 0xFFFFFFFE#32))) = some 0#32 := by decide

/-- Block 0, idle, and a running UNPACK12 of the second block that its own command would race with. -/
def racing : State :=
  { State.reset with
    blk := { State.reset.blk with cmd := 1#6, srcAddr := 0x1000#32, dstAddr := 0x2000#32, len := 3#32 }
    others :=
      [{ second with
        phase := .busy
        latched := { Latched.zero with op := 1#4, src := 0x2000#32, dst := 0x3000#32, len := 3#32 } }] }

theorem witness_racing_go :
    (∃ b ∈ racing.others, b.phase = .busy ∧ racing.blk.parameters.regions.conflict b.latched.regions = true) ∧
      racing.blk.phase = .idle ∧ refusalOf (step (facing racing (wrEvent base .ctrl 1#32))) = some .blockRace := by decide

theorem witness_isolation : Reg.len ≠ .ctrl ∧ Reg.len ≠ .status := by decide

theorem witness_command_frame :
    statusOf (exec .unpack12 (running 1#4 0x1000#32 0x2000#32 4#32 0#32 0#32 [])) = some 0x14#32 := by decide

/-- U15: a source that ends at the top of the address space. -/
theorem witness_unpack12_completes :
    let s := running 1#4 0xFFFFFFFD#32 0x2000#32 3#32 0#32 0#32 []
    let l := s.blk.latched
    l.len.toNat % 3 = 0 ∧ l.dst.toNat % 2 = 0 ∧ l.src.toNat + l.len.toNat ≤ addressSpace ∧
      l.dst.toNat + 4 * (l.len.toNat / 3) ≤ addressSpace ∧
        (unpackRegions l).src.overlaps (unpackRegions l).dst = false ∧ s.onDevice (unpackRegions l) = false ∧
          s.admitsRegions (unpackRegions l) = true := by decide

/-- U9, U14, U17, U21: one state for each error clause of UNPACK12, where the clauses meet. -/
theorem witness_unpack12_errors :
    statusOf (exec .unpack12 (running 1#4 0x1000#32 0x2000#32 4#32 0#32 0#32 [])) = some 0x14#32 ∧
      statusOf (exec .unpack12 (running 1#4 0x1000#32 0x2001#32 0#32 0#32 0#32 [])) = some 0x44#32 ∧
        statusOf (exec .unpack12 (running 1#4 0x1000#32 0xFFFFFFFE#32 3#32 0#32 0#32 [])) = some 0x54#32 ∧
          statusOf (exec .unpack12 (running 1#4 0x1000#32 0x1004#32 6#32 0#32 0#32 [])) = some 0x64#32 := by decide

/-- K15: a destination that ends at the top of the address space; the largest sample. -/
theorem witness_pack12_completes :
    let s := running 2#4 0x3000#32 0xFFFFFFFD#32 2#32 0#32 0#32 (cellsAt 0x3000 [0x0FFF#16, 0#16])
    let l := s.blk.latched
    l.len.toNat % 2 = 0 ∧ l.src.toNat % 2 = 0 ∧ l.src.toNat + 2 * l.len.toNat ≤ addressSpace ∧
      l.dst.toNat + 3 * (l.len.toNat / 2) ≤ addressSpace ∧ (packRegions l).src.overlaps (packRegions l).dst = false ∧
        s.onDevice (packRegions l) = false ∧ s.admitsRegions (packRegions l) = true ∧
          (∀ i, i < l.len.toNat → (Memory.readCell s.mem (l.src.toNat + 2 * i)).toNat ≤ 4095) := by decide

/-- K8, K12, K14, K16: one state for each error clause of PACK12. -/
theorem witness_pack12_errors :
    statusOf (exec .pack12 (running 2#4 0x3000#32 0x3100#32 3#32 0#32 0#32 [])) = some 0x14#32 ∧
      statusOf (exec .pack12 (running 2#4 0x3001#32 0x3100#32 2#32 0#32 0#32 [])) = some 0x44#32 ∧
        statusOf (exec .pack12 (running 2#4 0x3000#32 0xFFFFFFFE#32 2#32 0#32 0#32 [])) = some 0x54#32 ∧
          statusOf (exec .pack12 (running 2#4 0x3000#32 0x3002#32 2#32 0#32 0#32 [])) = some 0x64#32 := by decide

/-- K11: the last cell is the one above 4095. -/
theorem witness_pack12_sample_range :
    let s := running 2#4 0x3000#32 0x3100#32 2#32 0#32 0#32 (cellsAt 0x3000 [0#16, 0x1000#16])
    packCheck s.blk.latched = none ∧ s.onDevice (packRegions s.blk.latched) = false ∧
      s.admitsRegions (packRegions s.blk.latched) = true ∧ 1 < s.blk.latched.len.toNat ∧
        4096 ≤ (Memory.readCell s.mem (s.blk.latched.src.toNat + 2 * 1)).toNat := by decide

/-- E9: a sample above 4095 and a destination on the block's own window. -/
theorem witness_pack12_draw :
    let s := running 2#4 0x3000#32 base 2#32 0#32 0#32 (cellsAt 0x3000 [0x1000#16, 0#16])
    packCheck s.blk.latched = none ∧ s.onDevice (packRegions s.blk.latched) = false ∧
      s.admitsRegions (packRegions s.blk.latched) = false ∧ 0 < s.blk.latched.len.toNat ∧
        s.admits .read (s.blk.latched.src.toNat + 2 * 0) = true ∧
          s.admits .read (s.blk.latched.src.toNat + 2 * 0 + 1) = true ∧
            4096 ≤ (Memory.readCell s.mem (s.blk.latched.src.toNat + 2 * 0)).toNat := by decide

theorem witness_bus_error :
    let s := running 2#4 0x3000#32 base 2#32 0#32 0#32 []
    instrCheck s.blk.latched .pack12 = none ∧ s.sampleTooLarge s.blk.latched = false ∧
      s.onDevice (instrRegions s.blk.latched .pack12) = false ∧
        s.admitsRegions (instrRegions s.blk.latched .pack12) = false := by decide

/-- A destination whose last byte is the window's first. -/
theorem witness_own_window :
    let s := running 1#4 0x3000#32 0x3FFFFFFE#32 3#32 0#32 0#32 []
    (instrRegions s.blk.latched .unpack12).dst.overlaps s.blk.window = true ∧ s.blk.window.has 0x40000000 = true ∧
      s.blk.window.has 0x4000003F = true ∧ statusOf (exec .unpack12 s) = some 0x84#32 := by decide

/-- A source whose last byte is the window's first. -/
theorem witness_own_window_source :
    let s := running 1#4 0x3FFFFFFE#32 0x3000#32 3#32 0#32 0#32 []
    (instrRegions s.blk.latched .unpack12).src.overlaps s.blk.window = true ∧
      instrCheck s.blk.latched .unpack12 = none ∧ statusOf (exec .unpack12 s) = some 0x84#32 := by decide

/-- A machine all of whose memory is a device. -/
def deviceMachine : State :=
  { running 1#4 0x1000#32 0x2000#32 3#32 0#32 0#32 [] with
    busMap := [{ base := 0, size := addressSpace, admitsRead := true, admitsWrite := true, device := true }] }

theorem witness_device :
    instrCheck deviceMachine.blk.latched .unpack12 = none ∧
      deviceMachine.onDevice (instrRegions deviceMachine.blk.latched .unpack12) = true ∧
        refusalOf (exec .unpack12 deviceMachine) = some .deviceRegion := by decide

/-- U18: an empty region at the last address. -/
theorem witness_zero_length :
    statusOf (exec .unpack12 (running 1#4 0xFFFFFFFF#32 0x2000#32 0#32 0#32 0#32 [])) = some 0x2#32 ∧
      statusOf (exec .pack12 (running 2#4 0x3000#32 0xFFFFFFFF#32 0#32 0#32 0#32 [])) = some 0x2#32 := by decide

theorem witness_sample_bound : (0x0FFF#16 : Cell).toNat ≤ 4095 := by decide

/-- RT1's first and second command: the second meets the hypotheses of law (a). -/
theorem witness_round_trip_a :
    let u := running 2#4 0x2000#32 0x2100#32 2#32 0#32 0#32 (cellsAt 0x2000 [0x0123#16, 0x0456#16])
    u.blk.latched.src = 0x2000#32 ∧ u.blk.latched.len.toNat = 2 * (3 / 3) ∧ packCheck u.blk.latched = none ∧
      u.onDevice (packRegions u.blk.latched) = false ∧ u.admitsRegions (packRegions u.blk.latched) = true ∧
        shows (exec .unpack12
            (running 1#4 0x1000#32 0x2000#32 3#32 0#32 0#32 (bytesAt 0x1000 [0x12#8, 0x34#8, 0x56#8]))) 0x2000 4 =
          some (cellBytes 0x0123#16 ++ cellBytes 0x0456#16, 0x2#32, 2#32) := by decide

/-- RT2's first and second command: the second meets the hypotheses of law (b). -/
theorem witness_round_trip_b :
    let u := running 1#4 0x3100#32 0x3200#32 3#32 0#32 0#32 (bytesAt 0x3100 [0x12#8, 0x34#8, 0x56#8])
    u.blk.latched.src = 0x3100#32 ∧ u.blk.latched.len.toNat = 3 * (2 / 2) ∧ unpackCheck u.blk.latched = none ∧
      u.onDevice (unpackRegions u.blk.latched) = false ∧ u.admitsRegions (unpackRegions u.blk.latched) = true ∧
        shows (exec .pack12
            (running 2#4 0x3000#32 0x3100#32 2#32 0#32 0#32 (cellsAt 0x3000 [0x0123#16, 0x0456#16]))) 0x3100 3 =
          some ([0x12#8, 0x34#8, 0x56#8], 0x2#32, 3#32) := by decide

theorem witness_lane_order : [1, 0].Perm (List.range (6 / 3)) := by decide

theorem witness_loops :
    unpackCheck { Latched.zero with src := 0x1000#32, dst := 0x1006#32, len := 6#32 } = none ∧
      packCheck { Latched.zero with src := 0x3000#32, dst := 0x3004#32, len := 2#32 } = none ∧
        debayerCheck { Latched.zero with src := 0x4000#32, dst := 0x4008#32, w := 2#32, h := 2#32 } = none := by decide

/-- D17: regions that touch and do not overlap. -/
theorem witness_debayer_completes :
    let s := running 3#4 0x4000#32 0x4008#32 0#32 2#32 2#32 []
    let l := s.blk.latched
    2 ≤ l.w.toNat ∧ 2 ≤ l.h.toNat ∧ l.src.toNat % 2 = 0 ∧ l.dst.toNat % 2 = 0 ∧ l.src.toNat + 2 * 2 * 2 ≤ addressSpace ∧
      l.dst.toNat + 6 * 2 * 2 ≤ addressSpace ∧ (debayerRegions l).src.overlaps (debayerRegions l).dst = false ∧
        s.onDevice (debayerRegions l) = false ∧ s.admitsRegions (debayerRegions l) = true := by decide +kernel

/-- D11, D12, D14, D15, D18, D16: one state for each error clause of DEBAYER. -/
theorem witness_debayer_errors :
    statusOf (exec (.debayer .rggb) (running 3#4 0x4000#32 0x5000#32 0#32 1#32 2#32 [])) = some 0x74#32 ∧
      statusOf (exec (.debayer .rggb) (running 3#4 0x4000#32 0x5000#32 0#32 2#32 0#32 [])) = some 0x74#32 ∧
      statusOf (exec (.debayer .rggb) (running 3#4 0x4001#32 0x5000#32 0#32 2#32 2#32 [])) = some 0x44#32 ∧
      statusOf (exec (.debayer .rggb) (running 3#4 0x4000#32 0x5001#32 0#32 2#32 2#32 [])) = some 0x44#32 ∧
      statusOf (exec (.debayer .rggb) (running 3#4 0x4000#32 0x5000#32 0#32 0x10000#32 0x10000#32 [])) = some 0x54#32 ∧
      statusOf (exec (.debayer .rggb) (running 3#4 0x4000#32 0x4006#32 0#32 2#32 2#32 [])) = some 0x64#32 := by decide

theorem witness_neighbours : 2 ≤ 2 ∧ 0 < 2 ∧ colour .rggb 0 0 ≠ .g ∧ colour .rggb 1 1 ≠ .g := by decide

theorem witness_interior : 0 + 2 < 3 ∧ colour .rggb (0 + 1) (0 + 1) = .b ∧ colour .bggr (0 + 1) (0 + 1) = .r ∧
    colour .grbg (0 + 1) (0 + 1) = .g := by decide

theorem witness_mean : ([1, 2] : List Nat) ≠ [] ∧ (∀ v ∈ ([1, 2] : List Nat), 1 ≤ v ∧ v ≤ 2) := by decide

/-- The last byte of memory, read and written while a command runs elsewhere. -/
theorem witness_host_memory :
    let s := running 1#4 0x1000#32 0x2000#32 3#32 0#32 0#32 []
    let a := HostAccess.write 0xFFFFFFFF#32 (.byte 5#8)
    (∀ b ∈ s.blocks, b.window.overlaps a.region = false) ∧ a.region.start + a.region.size ≤ addressSpace ∧
      (busAdmits s.busMap a.kind 0xFFFFFFFF = true ∧ busDevice s.busMap 0xFFFFFFFF = false) ∧
        (∀ b ∈ s.blocks, ∀ l ∈ b.latched :: b.unobserved,
          l.regions.dst.has 0xFFFFFFFF = false ∧ l.regions.src.has 0xFFFFFFFF = false) ∧
          statusOf (step (facing s (.bus a))) = some 1#32 := by decide

theorem witness_host_race :
    let s := running 1#4 0x1000#32 0x2000#32 3#32 0#32 0#32 []
    s.blk.latched.regions.dst.has 0x2003 = true ∧ s.blk.latched.regions.src.has 0x1002 = true ∧
      refusalOf (step (facing s (.bus (.read 0x2003#32 .byte)))) = some .hostRace ∧
        refusalOf (step (facing s (.bus (.write 0x1002#32 (.byte 0#8))))) = some .hostRace ∧
          statusOf (step (facing s (.bus (.read 0x1002#32 .byte)))) = some 1#32 := by decide

/-- R176: a command that has completed, before the host looks at STATUS and after; its destination's last byte. -/
theorem witness_unobserved :
    let s := running 1#4 0x1000#32 0x2000#32 3#32 0#32 0#32 []
    let l := s.blk.latched
    let done := s.setBlk { s.blk with phase := .idle, done := true }
    let look := Event.bus (.read (Reg.status.address base) .word)
    let touch := Event.bus (.read 0x2003#32 .byte)
    l ∈ done.blk.unobserved ∧ l.regions.dst.has 0x2003 = true ∧ done.blk.phase = .idle ∧
      refusalOf (Host.Core.run core 1 (done.setAgenda [touch])) = some .hostRace ∧
        statusOf (Host.Core.run core 2 (done.setAgenda [look, touch])) = some 2#32 := by decide

theorem witness_wait :
    (facing State.reset (.poll (Reg.status.address base) 1#32 0#32)).agenda =
      .poll (Reg.status.address State.reset.blk.port.base) 1#32 0#32 :: [] ∧
      statusOf (Host.Core.run core 3
        (facing (running 0#4 0#32 0#32 0#32 0#32 0#32 []) (.poll (Reg.status.address base) 1#32 0#32))) = some 2#32 := by
  decide

/-- Line 0 asserted and not, with a host waiting for it. -/
theorem witness_interrupt_line :
    let s := State.reset.setBlk { State.reset.blk with err := true, errIe := true }
    (facing s (.takeIrq 0)).agenda = .takeIrq 0 :: [] ∧ s.irqLine 0 = true ∧ s.irqLine 1 = false ∧
      (facing State.reset (.takeIrq 0)).agenda = .takeIrq 0 :: [] ∧ State.reset.irqLine 0 = false := by decide

/-- The invariant in a state that no run from reset has to reach: two commands running apart. -/
theorem witness_invariant :
    State.Inv { running 1#4 0x1000#32 0x2000#32 3#32 0#32 0#32 (bytesAt 0x1000 [0x12#8]) with others := [second.start] } := by
  decide

theorem witness_independent :
    let s := { running 1#4 0x1000#32 0x2000#32 3#32 0#32 0#32 [] with others := [second.start], agenda := [.engine 1] }
    s.agenda = .engine (0 + 1) :: [] ∧ statusOf (step s) = some 1#32 := by decide

end Sys2Proof.Tests
end

section
/-! PROOFS. The configuration along a step (00_scope.md R9, R10): bringing a block into focus only reorders the ports, and
every other operation of a step is a step of one block, so each event gives the configuration back as it was. -/

namespace Sys2Proof

/-- The platform as a state sees it with block `k + 1` in focus: the first port and port `k + 1` change places. -/
def Platform.swap (p : Platform) (k : Nat) : Platform :=
  match p.otherPorts[k]? with
  | some q => { p with firstPort := q, otherPorts := p.otherPorts.set k p.firstPort }
  | none => p

end Sys2Proof

namespace Sys2Proof.Machine

theorem State.swap_platform (s : State) (k : Nat) : (s.swap k).platform = s.platform.swap k := by
  cases h : s.others[k]? <;> simp [State.swap, Platform.swap, State.platform, h, List.map_set]

@[simp] theorem State.setAgenda_platform (s : State) (es : List Event) : (s.setAgenda es).platform = s.platform := rfl

@[simp] theorem State.waitAgain_platform (s : State) (e : Event) : (s.waitAgain e).platform = s.platform := rfl

theorem LocalStep.platform_eq {s t : State} (h : LocalStep s t) : t.platform = s.platform := by
  simp [State.platform, h.port, h.others, h.busMap]

/-- A block brought into focus for its step goes back to its own place in the configuration (R10). -/
theorem onBlock_platform {s t : State} {k : Nat} {f : State → Host.Outcome State Fault Refusal}
    (hf : ∀ {u v : State}, f u = .next v → LocalStep u v) (h : s.onBlock k f = .next t) : t.platform = s.platform := by
  rcases onBlock_local hf h with ⟨_, hl⟩ | ⟨j, u, _, _, hl, rfl⟩
  · exact hl.platform_eq
  · rw [State.swap_platform, hl.platform_eq, ← State.swap_platform, swap_swap]

theorem hostAccess_platform {s t : State} {a : HostAccess} (h : s.hostAccess a = .next t) : t.platform = s.platform := by
  rcases hostAccess_next h with ⟨_, _, hw⟩ | ⟨_, hm⟩
  · exact onBlock_platform accessWindow_local hw
  · exact (accessHostMemory_local hm).platform_eq

/-- No event changes the configuration; a host that looks again, or takes an interrupt, changes other fields only (R10). -/
theorem runEvent_platform {s t : State} {e : Event} (h : s.runEvent e = .next t) : t.platform = s.platform := by
  cases e with
  | bus a => exact hostAccess_platform h
  | poll a mask value =>
    obtain ⟨u, hu, rfl⟩ := mapNext_next h
    split
    · exact hostAccess_platform hu
    · rw [State.waitAgain_platform, hostAccess_platform hu]
  | takeIrq line =>
    cases h
    split
    · exact takeLine_platform s line
    · exact State.waitAgain_platform s _
  | engine k => exact onBlock_platform engineTurn_local h
  | reset k => exact onBlock_platform assertReset_local h

theorem unattended_platform {s t : State} (h : s.unattended = .next t) : t.platform = s.platform := by
  unfold State.unattended at h
  split at h
  · exact onBlock_platform completionStep_local h
  · cases h; rfl

/-- Settles O59: a step is an unattended completion or an event, and neither changes the configuration. -/
theorem stepKeepsConfiguration : Obligations.StepKeepsConfiguration := by
  intro s t h
  unfold step at h
  split at h
  · exact unattended_platform h
  · exact (runEvent_platform h).trans (State.setAgenda_platform s _)

end Sys2Proof.Machine
end

section
/-! PROOFS. The platform's interrupt lines and the event of a host that waits for one (00_scope.md R9, 10_state.md R33,
20_memory.md R63, 60_exceptions.md R150). -/

namespace Sys2Proof.Machine

/-- The interrupt output is asserted while an enabled source is pending (R33). -/
theorem Block.irq_iff (b : Block) :
    b.irq = true ↔ (b.done = true ∧ b.doneIe = true ∨ b.err = true ∧ b.errIe = true) := by
  simp [Block.irq]

/-- A line is asserted while a block routed to it asserts its output (R33, R150). -/
theorem State.irqLine_iff (s : State) (line : Nat) :
    s.irqLine line = true ↔ ∃ b ∈ s.blocks, b.port.irqRoute = line ∧ b.irq = true := by
  simp only [State.irqLine, State.blocks, List.any_eq_true, Bool.and_eq_true, beq_iff_eq]

/-- A host that waits for an asserted line takes its interrupt (R63). -/
theorem step_takeIrq_of_asserted {s : State} {rest : List Event} {line : Nat} (ha : s.agenda = .takeIrq line :: rest)
    (hl : s.irqLine line = true) : step s = .next ((s.setAgenda rest).takeLine line) := by
  have hl' : (s.setAgenda rest).irqLine line = true := hl
  simp only [step, ha, State.runEvent, if_pos hl']

/-- A host that waits for a line that is not asserted looks again after a turn for every engine (log entry 7). -/
theorem step_takeIrq_of_not_asserted {s : State} {rest : List Event} {line : Nat}
    (ha : s.agenda = .takeIrq line :: rest) (hl : s.irqLine line = false) :
    step s = .next (s.setAgenda (s.allTurns ++ s.agenda)) := by
  have hl' : ¬(s.setAgenda rest).irqLine line = true := by rw [Bool.not_eq_true]; exact hl
  simp only [step, ha, State.runEvent, if_neg hl']
  rfl

/-- Settles O56: the line is the OR of its blocks' outputs, and what a host that takes it does to each block is
`Block.taken`. -/
theorem interruptLineIsLevel : Obligations.InterruptLineIsLevel := by
  intro s rest line
  refine ⟨?_, fun ha => ⟨fun hl f hf => ?_, step_takeIrq_of_not_asserted ha⟩⟩
  · simp only [State.irqLine_iff, Block.irq_iff]
  · obtain rfl : f = Block.taken line := funext fun b => (hf b).trans (Block.taken_eq b line).symm
    exact step_takeIrq_of_asserted ha hl

end Sys2Proof.Machine
end

section
/-! PROOFS. The invariant (10_state.md R39, 20_memory.md R69): it holds at reset, bringing a block into focus only reorders
the blocks it speaks of, and a step of the focused block keeps it; so every event does. -/

namespace Sys2Proof.Machine

theorem resetOn_blocks (p : Platform) :
    (State.resetOn p).blocks = p.ports.map fun q => Block.afterReset q Latched.zero := rfl

/-- A block that is not running races with none (R69). -/
theorem Block.keepsApart_of_idle {b : Block} (h : b.phase = .idle) (c : Block) : b.keepsApart c := by
  intro hb
  rw [h] at hb
  cases hb

/-- Settles O57: memory lists nothing, and every block is one right after reset, consistent and idle. -/
theorem invariantAtReset : Obligations.InvariantAtReset := by
  intro p
  refine ⟨Memory.wf_nil, fun b hb => ?_, ?_⟩
  · rw [resetOn_blocks] at hb
    obtain ⟨q, _, rfl⟩ := List.mem_map.mp hb
    exact Block.afterReset_consistent q _
  · rw [resetOn_blocks, List.pairwise_map]
    exact List.pairwise_of_forall fun _ _ => Block.keepsApart_of_idle rfl _

/-- The invariant speaks of the blocks in any order (R69). -/
theorem State.Inv.swap {s : State} (h : s.Inv) (k : Nat) : (s.swap k).Inv := by
  obtain ⟨hwf, hcons, hapart⟩ := h
  have hperm := swap_perm s k
  refine ⟨(State.swap_mem s k).symm ▸ hwf, fun b hb => hcons b (hperm.mem_iff.mp hb), ?_⟩
  exact (hperm.pairwise_iff Block.keepsApart_comm).mpr hapart

/-- A running command that goes on keeps apart from what it kept apart from; one that starts was found not to race (R69). -/
theorem LocalStep.keepsApart {s t : State} (h : LocalStep s t) (hs : ∀ b ∈ s.others, s.blk.keepsApart b) :
    ∀ b ∈ s.others, t.blk.keepsApart b := by
  intro b hb ht hbusy
  rcases h.running ht with ⟨hrun, hlatched⟩ | hnew
  · rw [hlatched]
    exact hs b hb hrun hbusy
  · exact hnew b hb ht hbusy

/-- A step of the focused block keeps the invariant. -/
theorem LocalStep.inv {s t : State} (h : LocalStep s t) (hs : s.Inv) : t.Inv := by
  obtain ⟨hwf, hcons, hapart⟩ := hs
  obtain ⟨hblk, hothers⟩ := List.forall_mem_cons.mp hcons
  obtain ⟨hfocus, hrest⟩ := List.pairwise_cons.mp hapart
  refine ⟨h.wf hwf, ?_, ?_⟩ <;> rw [State.blocks, h.others]
  · exact List.forall_mem_cons.mpr ⟨h.consistent hblk, hothers⟩
  · exact List.pairwise_cons.mpr ⟨h.keepsApart hfocus, hrest⟩

/-- A step of any block keeps the invariant: the block is brought into focus, steps, and goes back. -/
theorem onBlock_inv {s t : State} {k : Nat} {f : State → Host.Outcome State Fault Refusal}
    (hf : ∀ {u v : State}, f u = .next v → LocalStep u v) (h : s.onBlock k f = .next t) (hs : s.Inv) : t.Inv := by
  rcases onBlock_local hf h with ⟨_, hl⟩ | ⟨j, u, _, _, hl, rfl⟩
  · exact hl.inv hs
  · exact (hl.inv (hs.swap j)).swap j

theorem hostAccess_inv {s t : State} {a : HostAccess} (h : s.hostAccess a = .next t) (hs : s.Inv) : t.Inv := by
  rcases hostAccess_next h with ⟨_, _, hw⟩ | ⟨_, hm⟩
  · exact onBlock_inv accessWindow_local hw hs
  · exact (accessHostMemory_local hm).inv hs

/-- No event breaks the invariant; a host that looks again changes the agenda only. -/
theorem runEvent_inv {s t : State} {e : Event} (h : s.runEvent e = .next t) (hs : s.Inv) : t.Inv := by
  cases e with
  | bus a => exact hostAccess_inv h hs
  | poll a mask value =>
    obtain ⟨u, hu, rfl⟩ := mapNext_next h
    have hinv : u.Inv := hostAccess_inv hu hs
    split <;> exact hinv
  | takeIrq line =>
    cases h
    split
    · exact takeLine_inv hs line
    · exact hs
  | engine k => exact onBlock_inv engineTurn_local h hs
  | reset k => exact onBlock_inv assertReset_local h hs

theorem unattended_inv {s t : State} (h : s.unattended = .next t) (hs : s.Inv) : t.Inv := by
  unfold State.unattended at h
  split at h
  · exact onBlock_inv completionStep_local h hs
  · cases h; exact hs

/-- Settles O58: a step is an unattended completion or an event, and each keeps the invariant. -/
theorem stepKeepsInvariant : Obligations.StepKeepsInvariant := by
  intro s t hs h
  unfold step at h
  split at h
  · exact unattended_inv h hs
  · exact runEvent_inv h hs

end Sys2Proof.Machine
end

section
/-! PROOFS. What a step does, event by event, and which commands it runs (00_scope.md R8, 10_state.md R21, R30, 40_control.md
R90). -/

namespace Sys2Proof.Machine

/-- The oldest event of the agenda happens (R8). -/
theorem step_of_event {s : State} {e : Event} {rest : List Event} (h : s.agenda = e :: rest) :
    step s = (s.setAgenda rest).runEvent e := by
  simp only [step, h]

/-- With nothing on the agenda the engines run on their own (R182). -/
theorem step_of_nil {s : State} (h : s.agenda = []) : step s = s.unattended := by
  simp only [step, h]

/-! ### The completion step -/

theorem completionStep_of_command {s : State} {i : Instr} (h : decode s.blk.latched.commandWord = .command i) :
    s.completionStep = exec i s := by
  simp only [State.completionStep, h]

/-- A latched reserved opcode ends with ILLEGAL_OP (R75). -/
theorem completionStep_of_illegal {s : State} {op : BitVec 4}
    (h : decode s.blk.latched.commandWord = .illegal op) : s.completionStep = .next (s.raiseError .illegalOp) := by
  simp only [State.completionStep, h]

theorem engineTurn_of_busy {s : State} (h : s.blk.phase = .busy) : s.engineTurn = s.completionStep :=
  if_pos ((Block.busy_iff _).mpr h)

/-- An idle engine has no step (R30, R161). -/
theorem engineTurn_of_idle {s : State} (h : s.blk.phase = .idle) : s.engineTurn = .next s :=
  if_neg (by simp [h])

theorem unattended_of_focus_busy {s : State} (h : s.blk.phase = .busy) : s.unattended = s.completionStep := by
  have hfirst : s.firstBusy = some 0 := by simp [State.firstBusy, List.findIdx?_cons, h]
  simp only [State.unattended, hfirst, State.onBlock]

/-- The machine rests while no command runs (R161). -/
theorem unattended_of_idle {s : State} (h : ∀ b ∈ s.blocks, b.phase = .idle) : s.unattended = .next s := by
  have hfirst : s.firstBusy = none :=
    List.findIdx?_eq_none_iff.mpr fun b hb => (Block.not_busy_iff b).mpr (h b hb)
  simp only [State.unattended, hfirst]

theorem swap_blk_of {s : State} {k : Nat} {b : Block} (h : s.others[k]? = some b) : (s.swap k).blk = b := by
  rw [swap_of h]

/-- A step of block `k + 1` is a step of that block in focus. -/
theorem onBlock_succ {s : State} {k : Nat} {b : Block} (h : s.others[k]? = some b)
    (f : State → Host.Outcome State Fault Refusal) :
    s.onBlock (k + 1) f = mapNext (fun t => t.swap k) (f (s.swap k)) :=
  if_pos (List.getElem?_eq_some_iff.mp h).1

/-! ### An engine's turn -/

theorem step_engine_zero {s : State} {rest : List Event} (h : s.agenda = .engine 0 :: rest)
    (hb : s.blk.phase = .busy) : step s = (s.setAgenda rest).completionStep := by
  rw [step_of_event h]
  exact engineTurn_of_busy (s := s.setAgenda rest) hb

theorem step_engine_succ {s : State} {rest : List Event} {k : Nat} {b : Block}
    (h : s.agenda = .engine (k + 1) :: rest) (hk : s.others[k]? = some b) (hb : b.phase = .busy) :
    step s = mapNext (fun t => t.swap k) ((s.setAgenda rest).swap k).completionStep := by
  have hfocus : ((s.setAgenda rest).swap k).blk = b := swap_blk_of (s := s.setAgenda rest) hk
  rw [step_of_event h, ← engineTurn_of_busy (hfocus.symm ▸ hb)]
  exact onBlock_succ (s := s.setAgenda rest) hk _

/-- Settles O6: an engine's turn, or the unattended machine, takes the completion step of its block, which runs the decoded
command or raises ILLEGAL_OP. -/
theorem stepRunsDecodedCommand : Obligations.StepRunsDecodedCommand := by
  refine ⟨fun s rest ha hb => ?_, fun s ha hb => ?_, fun s rest k b ha hk hb => ?_⟩
  · rw [step_engine_zero ha hb]
    exact ⟨fun i hi => completionStep_of_command hi, fun op hop => completionStep_of_illegal hop⟩
  · rw [step_of_nil ha, unattended_of_focus_busy hb]
    exact ⟨fun i hi => completionStep_of_command hi, fun op hop => completionStep_of_illegal hop⟩
  · have hfocus : ((s.setAgenda rest).swap k).blk = b := swap_blk_of (s := s.setAgenda rest) hk
    rw [step_engine_succ ha hk hb]
    refine ⟨fun i hi => ?_, fun op hop => ?_⟩
    · rw [completionStep_of_command (hfocus.symm ▸ hi)]
    · rw [completionStep_of_illegal (hfocus.symm ▸ hop), State.raiseError, hfocus]
      exact congrArg Host.Outcome.next (swap_back (s := s.setAgenda rest) hk _)

/-- Settles O8: with no command running the machine rests, and so does an idle engine given its turn. -/
theorem idleEngineRests : Obligations.IdleEngineRests := by
  refine ⟨fun s ha hidle => ?_, fun s rest ha hidle => ?_⟩
  · rw [step_of_nil ha, unattended_of_idle hidle]
  · rw [step_of_event ha]
    exact engineTurn_of_idle hidle

/-! ### A placed word -/

/-- Decoding depends on the OP and CFA fields alone (R70, R77). -/
theorem decode_congr {v w : Word} (hop : opField v = opField w) (hcfa : cfaField v = cfaField w) :
    decode v = decode w := by
  simp only [decode, hop, hcfa]

/-- CMD's six bits hold both fields of a command word (R23, R70). -/
theorem decode_writeCmd (b : Block) (w : Word) :
    decode (b.writeReg .cmd w).parameters.commandWord = decode w := by
  apply decode_congr
  · rw [Latched.opField_commandWord]
    simp only [Block.parameters, Block.writeReg, opField]
    ext i hi
    simp
  · rw [Latched.cfaField_commandWord]
    simp only [Block.parameters, Block.writeReg, cfaField]
    ext i hi
    simp

/-- A placed 32-bit word is latched as it is (log entry 8). -/
theorem withFetchWord_toNat (s : State) (w : Word) : s.withFetchWord 32 w.toNat = s.launch w := by
  rw [State.withFetchWord, Nat.mod_eq_of_lt w.isLt, BitVec.ofNat_toNat, BitVec.setWidth_eq]

/-- Settles O7: placing the word makes block 0 busy and its engine's turn next, which takes the word's completion step. -/
theorem placedWordRunsNext : Obligations.PlacedWordRunsNext := by
  intro s w i hw
  rw [withFetchWord_toNat, step_engine_zero (State.launch_agenda s w) rfl]
  exact completionStep_of_command ((decode_writeCmd s.blk w).trans hw)

end Sys2Proof.Machine
end

section
/-! PROOFS. Reset (10_state.md R39, 70_reset_and_hazards.md R171): a block right after reset, and what the reset input does in
either phase. -/

namespace Sys2Proof.Machine

theorem Block.afterReset_busy (p : Port) (l : Latched) : (Block.afterReset p l).busy = false := rfl

theorem Block.afterReset_readReg (p : Port) (l : Latched) (r : Reg) : (Block.afterReset p l).readReg r = 0#32 := by
  cases r <;> simp [Block.readReg, Block.statusWord, Block.afterReset_busy]

theorem Block.afterReset_irq (p : Port) (l : Latched) : (Block.afterReset p l).irq = false := rfl

/-- Settles O11: every block of the platform is one right after reset. -/
theorem resetStateReadsZero : Obligations.ResetStateReadsZero := by
  intro p b hb
  rw [resetOn_blocks] at hb
  obtain ⟨q, _, rfl⟩ := List.mem_map.mp hb
  exact ⟨Block.afterReset_readReg q _, Block.afterReset_irq q _, rfl⟩

/-- A reset is refused only where it abandons a command that was accessing a device (R59, R171). -/
theorem assertReset_eq {s : State}
    (h : s.blk.phase = .busy → s.blk.latched.accesses = true → s.onDevice s.blk.latched.regions = false) :
    s.assertReset = .next s.abandon.resetBlk := by
  refine if_neg fun hdev => ?_
  simp only [Bool.and_eq_true, Block.busy_iff] at hdev
  obtain ⟨⟨hb, hacc⟩, hon⟩ := hdev
  rw [h hb hacc] at hon
  cases hon

theorem abandon_of_idle {s : State} (h : s.blk.phase = .idle) : s.abandon = s :=
  if_neg (by simp [h])

theorem abandon_of_busy {s : State} (h : s.blk.phase = .busy) :
    s.abandon = s.scramble s.blk.latched.regions.dst :=
  if_pos ((Block.busy_iff _).mpr h)

/-- Settles O12: the block is one right after reset, and memory is what `State.abandon` leaves. -/
theorem resetEffect : Obligations.ResetEffect := by
  intro s rest ha hdev
  have hstep : step s = .next (s.setAgenda rest).abandon.resetBlk :=
    (step_of_event ha).trans (assertReset_eq (s := s.setAgenda rest) hdev)
  refine ⟨_, hstep, Block.afterReset_readReg _ _, rfl, rfl, rfl, rfl, rfl, rfl, rfl, rfl, ?_⟩
  simp only [State.resetBlk_blk, State.resetBlk_others, State.resetBlk_busMap, State.resetBlk_lastRead,
    State.resetBlk_agenda, State.resetBlk_mem, Block.afterReset_port, abandon_blk, abandon_others, abandon_busMap,
    abandon_lastRead, abandon_agenda]
  refine ⟨rfl, rfl, rfl, rfl, rfl, fun hi => ?_, fun hb a => ?_⟩
  · rw [abandon_of_idle (s := s.setAgenda rest) hi]
    rfl
  · rw [abandon_of_busy (s := s.setAgenda rest) hb]
    exact Memory.read_scramble ..

end Sys2Proof.Machine
end

section
/-! PROOFS. The running command reads nothing of its block but the latched copies and the port (10_state.md R31, 40_control.md
R94), and a register write meets nothing that a completion step writes. -/

namespace Sys2Proof.Machine

/-! ### What a command asks of a state does not depend on the block's registers -/

section
variable {s : State} {b : Block}

/-- Admission looks at the block's window only (R51, R146). -/
theorem admits_setBlk (hp : b.port = s.blk.port) : (s.setBlk b).admits = s.admits := by
  funext k a
  simp [State.admits, Block.window, hp]

theorem onDevice_setBlk (hp : b.port = s.blk.port) (r : Regions) : (s.setBlk b).onDevice r = s.onDevice r := by
  simp [State.onDevice, State.isDevice, admits_setBlk hp]

theorem accessError_setBlk (hp : b.port = s.blk.port) (r : Regions) (bad : Bool) :
    (s.setBlk b).accessError r bad = s.accessError r bad := by
  have hadmits : (s.setBlk b).admitsRegions r = s.admitsRegions r := by
    simp only [State.admitsRegions, admits_setBlk hp]
  simp only [State.accessError, hadmits]
  rfl

theorem scramble_setBlk (hp : b.port = s.blk.port) (r : Region) :
    (s.setBlk b).scramble r = (s.scramble r).setBlk b := by
  simp only [State.scramble, admits_setBlk hp]
  rfl

theorem commandResult_setBlk (hl : b.latched = s.blk.latched) (i : Instr) :
    commandResult (s.setBlk b) i = commandResult s i := by
  cases i <;> simp [commandResult, hl]

theorem commandSampleBad_setBlk (hp : b.port = s.blk.port) (hl : b.latched = s.blk.latched) (i : Instr) :
    commandSampleBad (s.setBlk b) i = commandSampleBad s i := by
  cases i <;> simp [commandSampleBad, State.sampleTooLarge, admits_setBlk hp, hl]

end

/-! ### A register write before a completion step -/

/-- The state with a register of the focused block written. -/
def State.writeReg (s : State) (r : Reg) (v : Word) : State := s.setBlk (s.blk.writeReg r v)

section
variable {r : Reg} (hctrl : r ≠ .ctrl) (hstatus : r ≠ .status)
include hctrl

theorem Block.writeReg_latched (b : Block) (v : Word) : (b.writeReg r v).latched = b.latched := by
  cases r <;> first | contradiction | rfl

include hstatus

/-- The completion step of a command that ends with an error writes no register that the host writes (R90). -/
theorem Block.writeReg_completeError (b : Block) (v : Word) (e : ErrCode) :
    (b.writeReg r v).completeError e = (b.completeError e).writeReg r v := by
  cases r <;> first | contradiction | rfl

/-- The completion step of a command that succeeds writes no register that the host writes (R90). -/
theorem Block.writeReg_completeOk (b : Block) (v : Word) (n : Nat) :
    (b.writeReg r v).completeOk n = (b.completeOk n).writeReg r v := by
  cases r <;> first | contradiction | rfl

theorem raiseError_writeReg (s : State) (v : Word) (e : ErrCode) :
    (s.writeReg r v).raiseError e = (s.raiseError e).writeReg r v :=
  congrArg s.setBlk (Block.writeReg_completeError hctrl hstatus s.blk v e)

theorem complete_writeReg (s : State) (v : Word) (n : Nat) :
    (s.writeReg r v).complete n = (s.complete n).writeReg r v :=
  congrArg s.setBlk (Block.writeReg_completeOk hctrl hstatus s.blk v n)

/-- The memory phase is the same with a register written before it or after it. -/
theorem accessMemory_writeReg (s : State) (v : Word) (q : Regions) (bad : Bool) (m : Memory) (n : Nat) :
    (s.writeReg r v).accessMemory q bad m n = mapNext (fun t => t.writeReg r v) (s.accessMemory q bad m n) := by
  have hp := Block.writeReg_port s.blk r v
  have hdev : (s.writeReg r v).onDevice q = s.onDevice q := onDevice_setBlk hp q
  have herr : (s.writeReg r v).accessError q bad = s.accessError q bad := accessError_setBlk hp q bad
  have hscr : (s.writeReg r v).scramble q.dst = (s.scramble q.dst).writeReg r v := scramble_setBlk hp q.dst
  simp only [State.accessMemory, hdev, herr]
  split
  · rfl
  · split
    · next e _ => rw [hscr, raiseError_writeReg hctrl hstatus]; rfl
    · exact congrArg Host.Outcome.next (complete_writeReg hctrl hstatus (s.setMem m) v n)

/-- A completion step is the same with a register written before it or after it (R31, R94). -/
theorem exec_writeReg (s : State) (v : Word) (i : Instr) :
    exec i (s.writeReg r v) = mapNext (fun t => t.writeReg r v) (exec i s) := by
  have hp := Block.writeReg_port s.blk r v
  have hl := Block.writeReg_latched hctrl s.blk v
  have hlatched : (s.writeReg r v).blk.latched = s.blk.latched := hl
  have hresult : ∀ j, commandResult (s.writeReg r v) j = commandResult s j := commandResult_setBlk hl
  have hbad : ∀ j, commandSampleBad (s.writeReg r v) j = commandSampleBad s j :=
    commandSampleBad_setBlk hp hl
  simp only [exec_eq, hlatched, hresult, hbad]
  cases instrCheck s.blk.latched i with
  | some e => exact congrArg Host.Outcome.next (raiseError_writeReg hctrl hstatus s v e)
  | none =>
    cases i with
    | nop => exact congrArg Host.Outcome.next (complete_writeReg hctrl hstatus s v 0)
    | _ => exact accessMemory_writeReg hctrl hstatus s v _ _ _ _

end

/-- Settles O26: `exec_writeReg` at each register other than CTRL and STATUS. -/
theorem runningCommandIsIsolated : Obligations.RunningCommandIsIsolated :=
  fun s i _ v hctrl hstatus => exec_writeReg hctrl hstatus s v i

end Sys2Proof.Machine
end

section
/-! PROOFS. The registers of the window (10_state.md R22 to R35): what a read returns bit by bit, what a write keeps of the
value written, and the interrupt output. -/

namespace Sys2Proof.Machine

/-! ### STATUS bit by bit (R25) -/

/-- STATUS as the concatenation of its fields, of the width they add up to. -/
theorem Block.statusWord_eq (b : Block) :
    b.statusWord = (0#24 ++ b.errCode ++ BitVec.ofBool b.goIgnored ++ BitVec.ofBool b.err ++ BitVec.ofBool b.done ++
      BitVec.ofBool b.busy : BitVec (24 + 4 + 1 + 1 + 1 + 1)) := rfl

theorem Block.getLsbD_statusWord_zero (b : Block) : b.statusWord.getLsbD 0 = b.busy := by
  simp only [Block.statusWord_eq, BitVec.getLsbD_append, BitVec.getLsbD_ofBool]; rfl

theorem Block.getLsbD_statusWord_one (b : Block) : b.statusWord.getLsbD 1 = b.done := by
  simp only [Block.statusWord_eq, BitVec.getLsbD_append, BitVec.getLsbD_ofBool]; rfl

theorem Block.getLsbD_statusWord_two (b : Block) : b.statusWord.getLsbD 2 = b.err := by
  simp only [Block.statusWord_eq, BitVec.getLsbD_append, BitVec.getLsbD_ofBool]; rfl

theorem Block.getLsbD_statusWord_three (b : Block) : b.statusWord.getLsbD 3 = b.goIgnored := by
  simp only [Block.statusWord_eq, BitVec.getLsbD_append, BitVec.getLsbD_ofBool]; rfl

/-- Above the flags stands ERRCODE, and above its four bits 0. -/
theorem Block.getLsbD_statusWord_add (b : Block) (i : Nat) : b.statusWord.getLsbD (4 + i) = b.errCode.getLsbD i := by
  have hi : 4 + i - (1 + 1 + 1 + 1) = i := by omega
  simp only [Block.statusWord_eq, BitVec.getLsbD_append, Nat.sub_sub, hi]
  rw [if_neg (by omega), if_neg (by omega), if_neg (by omega), if_neg (by omega)]
  split
  · rfl
  · next h => rw [BitVec.getLsbD_zero, BitVec.getLsbD_of_ge _ _ (by omega)]

/-- Settles O19: the flags are bits 3:0, ERRCODE the four above them, and above ERRCODE no bit is set. -/
theorem statusFields : Obligations.StatusFields := by
  intro b
  refine ⟨?_, b.getLsbD_statusWord_one, b.getLsbD_statusWord_two, b.getLsbD_statusWord_three, ?_, ?_⟩
  · exact b.getLsbD_statusWord_zero.trans (by cases h : b.phase <;> simp [Block.busy, h])
  · ext i hi
    exact (BitVec.getElem_extractLsb' hi).trans (b.getLsbD_statusWord_add i)
  · ext i hi
    have hhigh : b.errCode.getLsbD (4 + i) = false := BitVec.getLsbD_of_ge _ _ (by omega)
    rw [BitVec.getElem_extractLsb', BitVec.getElem_zero, ← hhigh, ← b.getLsbD_statusWord_add (4 + i)]
    congr 1
    omega

/-! ### The implemented bits of a register (R23 to R29, R32, R35) -/

/-- How many bits of a register are not reserved: they are its lowest. -/
def Reg.implementedWidth : Reg → Nat
  | .cmd => 6
  | .ctrl => 1
  | .status => 8
  | .irqEn => 2
  | _ => 32

theorem getLsbD_implementedBits (r : Reg) : ∀ i < 32, (implementedBits r).getLsbD i = decide (i < r.implementedWidth) := by
  cases r <;> decide

theorem Block.readReg_cmd (b : Block) : b.readReg .cmd = b.cmd.setWidth 32 :=
  (BitVec.setWidth_eq_append (by decide)).symm

/-- IRQ_EN holds the two enables (R26). -/
theorem Block.getLsbD_readReg_irqEn (b : Block) (i : Nat) :
    (b.readReg .irqEn).getLsbD i = if i = 0 then b.doneIe else if i = 1 then b.errIe else false := by
  change (0#30 ++ BitVec.ofBool b.errIe ++ BitVec.ofBool b.doneIe : BitVec (30 + 1 + 1)).getLsbD i = _
  match i with
  | 0 | 1 | i + 2 => simp only [BitVec.getLsbD_append, BitVec.getLsbD_ofBool, BitVec.getLsbD_zero]; rfl

/-- Reserved bits read as 0 (R35). -/
theorem Block.getLsbD_readReg_reserved (b : Block) {r : Reg} {i : Nat} (h : r.implementedWidth ≤ i) :
    (b.readReg r).getLsbD i = false := by
  cases r with
  | cmd =>
    rw [Block.readReg_cmd, BitVec.getLsbD_setWidth, BitVec.getLsbD_of_ge b.cmd i h, Bool.and_false]
  | ctrl => exact BitVec.getLsbD_zero
  | status =>
    obtain ⟨j, rfl⟩ := Nat.exists_eq_add_of_le (show 4 ≤ i from Nat.le_trans (by decide) h)
    rw [Block.readReg, Block.getLsbD_statusWord_add]
    exact BitVec.getLsbD_of_ge _ _ (Nat.le_of_add_le_add_left (a := 4) h)
  | irqEn =>
    have h2 : 2 ≤ i := h
    rw [Block.getLsbD_readReg_irqEn, if_neg (by omega), if_neg (by omega)]
  | _ => exact BitVec.getLsbD_of_ge _ _ h

/-- A write depends on the implemented bits of the value alone (R35). -/
theorem Block.writeReg_congr (b : Block) {r : Reg} {v w : Word}
    (h : ∀ i < r.implementedWidth, v.getLsbD i = w.getLsbD i) : b.writeReg r v = b.writeReg r w := by
  cases r with
  | cmd =>
    have hcmd : v.extractLsb' 0 6 = w.extractLsb' 0 6 := by
      ext i hi
      simpa [hi] using h i hi
    simp only [Block.writeReg, hcmd]
  | ctrl => simp only [Block.writeReg, Block.writeCtrl, h 0 (by decide)]
  | status =>
    simp only [Block.writeReg, Block.writeStatus, h 1 (by decide), h 2 (by decide), h 3 (by decide)]
  | irqEn => simp only [Block.writeReg, h 0 (by decide), h 1 (by decide)]
  | _ => rw [BitVec.eq_of_getLsbD_eq h]

/-- Settles O17: the reserved bits are those above the implemented width, which read as 0 and which no write looks at. -/
theorem reservedBits : Obligations.ReservedBits := by
  refine fun b r => ⟨?_, fun v w h => b.writeReg_congr fun i hi => ?_⟩
  · refine BitVec.eq_of_getLsbD_eq fun i hi => ?_
    rw [BitVec.getLsbD_and, BitVec.getLsbD_not, BitVec.getLsbD_zero, getLsbD_implementedBits r i hi]
    by_cases hw : i < r.implementedWidth
    · simp [hw]
    · rw [b.getLsbD_readReg_reserved (Nat.le_of_not_lt hw), Bool.false_and]
  · have h32 : i < 32 := by cases r <;> exact Nat.lt_of_lt_of_le hi (by decide)
    simpa [getLsbD_implementedBits r i h32, hi] using congrArg (BitVec.getLsbD · i) h

/-! ### What a write leaves (R23, R26 to R29, R32) -/

/-- A register that holds what the host writes reads it back, bit by bit. -/
theorem Block.getLsbD_readReg_writeReg_same (b : Block) {r : Reg} (v : Word) (hctrl : r ≠ .ctrl)
    (hstatus : r ≠ .status) (hcount : r ≠ .outCount) {i : Nat} (hi : i < r.implementedWidth) :
    ((b.writeReg r v).readReg r).getLsbD i = v.getLsbD i := by
  cases r with
  | cmd =>
    have h6 : i < 6 := hi
    have h32 : i < 32 := by omega
    simp only [Block.readReg_cmd, Block.writeReg, BitVec.getLsbD_setWidth, BitVec.getLsbD_extractLsb', Nat.zero_add,
      h6, h32, decide_true, Bool.true_and]
  | irqEn =>
    rw [Block.getLsbD_readReg_irqEn]
    match i with
    | 0 | 1 => rfl
  | ctrl => exact absurd rfl hctrl
  | status => exact absurd rfl hstatus
  | outCount => exact absurd rfl hcount
  | _ => rfl

/-- A write to a register other than CTRL and STATUS changes no other register's value. -/
theorem Block.readReg_writeReg_ne (b : Block) {r q : Reg} (v : Word) (hctrl : r ≠ .ctrl) (hstatus : r ≠ .status)
    (hq : q ≠ r) : (b.writeReg r v).readReg q = b.readReg q := by
  cases r <;> first | contradiction | (cases q <;> first | contradiction | rfl)

/-- Settles O18: `Block.getLsbD_readReg_writeReg_same` and `Block.readReg_writeReg_ne`. -/
theorem writesReadBack : Obligations.WritesReadBack := by
  intro b r v hctrl hstatus
  refine ⟨fun hcount => BitVec.eq_of_getLsbD_eq fun i hi => ?_, ?_, fun q => b.readReg_writeReg_ne v hctrl hstatus, rfl⟩
  · rw [BitVec.getLsbD_and, getLsbD_implementedBits r i hi]
    by_cases hw : i < r.implementedWidth
    · rw [b.getLsbD_readReg_writeReg_same v hctrl hstatus hcount hw, decide_eq_true hw, Bool.and_true]
    · rw [Block.getLsbD_readReg_reserved _ (Nat.le_of_not_lt hw), decide_eq_false hw, Bool.and_false]
  · rintro rfl
    rfl

/-! ### The interrupt output (R33, R150, R151) -/

/-- Settles O21: the output is a function of the two flags and the two enables, whatever wrote them. -/
theorem interruptFollowsStatus : Obligations.InterruptFollowsStatus := by
  intro b v n e
  refine ⟨rfl, rfl, rfl, ?_, ?_, rfl⟩
  · simp [Block.irq]
  · simp [Block.irq]

/-! ### Unmapped offsets and CTRL (R24, R34) -/

theorem Reg.ofOffset_unmapped : ∀ n < 16, 10 ≤ n → Reg.ofOffset (4 * n) = none := by decide

/-- Settles O15: no register stands at the offset, so the window's read returns 0 and its write does nothing. -/
theorem unmappedOffsets : Obligations.UnmappedOffsets := by
  intro s rest n v hb hlo hhi
  have hnone := Reg.ofOffset_unmapped n hhi hlo
  have hfits : 4 * n + 4 ≤ 64 := by omega
  have haligned : 4 * n % 4 = 0 := by omega
  refine ⟨fun ha => ?_, fun ha => ?_⟩
  · rw [step_of_event ha]
    refine (hostAccess_read_offset (s := s.setAgenda rest) hb hfits haligned).trans ?_
    simp only [State.readWindow, hnone]
  · rw [step_of_event ha]
    refine (hostAccess_write_offset (s := s.setAgenda rest) v hb hfits haligned).trans ?_
    simp only [State.writeWindow, hnone]

theorem Block.writeReg_ctrl_of_clear (b : Block) {v : Word} (h : v.getLsbD 0 = false) : b.writeReg .ctrl v = b :=
  if_neg (Bool.eq_false_iff.mp h)

theorem writeWindow_ctrl_of_clear (s : State) {v : Word} (h : v.getLsbD 0 = false) :
    s.writeWindow Reg.ctrl.offset v = .next s := by
  have hsame : s.setBlk (s.blk.writeReg .ctrl v) = s := by rw [s.blk.writeReg_ctrl_of_clear h]; rfl
  simp only [State.writeWindow, Reg.ofOffset_offset, hsame]
  cases s.blk.busy <;> rfl

/-- Settles O24: bit 0 is CTRL's only implemented bit, and a write with it clear writes nothing. -/
theorem ctrlHoldsNothing : Obligations.CtrlHoldsNothing := by
  refine ⟨fun s rest v hb ha hv => ?_, fun b v w h => b.writeReg_congr fun i hi => ?_, fun _ => rfl⟩
  · rw [step_of_event ha]
    refine (hostAccess_write_offset (s := s.setAgenda rest) v hb Reg.ctrl.offset_fits.1 Reg.ctrl.offset_fits.2).trans ?_
    exact writeWindow_ctrl_of_clear _ hv
  · obtain rfl : i = 0 := Nat.lt_one_iff.mp hi
    exact h

end Sys2Proof.Machine
end

section
/-! PROOFS. Memory and the regions of a command (20_memory.md): what a command reads and writes, what it never reaches, when
it is refused. -/

namespace Sys2Proof.Machine

/-! ### Cells in memory (R52) -/

theorem Memory.toNat_readCell (m : Memory) (a : Nat) :
    (Memory.readCell m a).toNat = (Memory.read m (a + 1)).toNat * 256 + (Memory.read m a).toNat := by
  have hlow := (Memory.read m a).isLt
  rw [Memory.readCell, BitVec.toNat_append, ← Nat.shiftLeft_add_eq_or_of_lt hlow, Nat.shiftLeft_eq]

/-- A cell's low byte, right after it is stored. -/
theorem Memory.read_writeCell_low (m : Memory) (a : Nat) (v : Cell) :
    Memory.read (Memory.writeBytes m a (cellBytes v)) a = v.extractLsb' 0 8 := by
  simp [Memory.read_writeBytes, cellBytes]

theorem Memory.read_writeCell_high (m : Memory) (a : Nat) (v : Cell) :
    Memory.read (Memory.writeBytes m a (cellBytes v)) (a + 1) = v.extractLsb' 8 8 := by
  simp [Memory.read_writeBytes, cellBytes]

theorem Memory.readCell_writeCell (m : Memory) (a : Nat) (v : Cell) :
    Memory.readCell (Memory.writeBytes m a (cellBytes v)) a = v := by
  rw [Memory.readCell, Memory.read_writeCell_low, Memory.read_writeCell_high, cell_of_bytes]

/-- Bytes stored from `a` leave every byte outside their region as it was. -/
theorem Memory.writeBytes_agreeOutside (m : Memory) (a : Nat) (vs : List Byte) :
    Memory.agreeOutside m (Memory.writeBytes m a vs) { start := a, size := vs.length } := by
  intro x hx
  rw [Memory.read_writeBytes, if_neg ((Region.has_eq_false _ _).mp hx)]

/-- Settles O52: the bytes a cell is made of, and the two that storing it writes. -/
theorem cellsAreLittleEndian : Obligations.CellsAreLittleEndian := by
  intro m a v
  refine ⟨m.toNat_readCell a, m.read_writeCell_low a v, m.read_writeCell_high a v, m.readCell_writeCell a v, ?_⟩
  intro x hlow hhigh
  refine m.writeBytes_agreeOutside a (cellBytes v) x ((Region.has_eq_false _ _).mpr ?_)
  simp only [cellBytes_length]
  omega

/-! ### A completion step, from its checks on -/

/-- A check that fails ends the command before any memory access (R142, R148). -/
theorem exec_of_check {i : Instr} {s : State} {e : ErrCode} (h : instrCheck s.blk.latched i = some e) :
    exec i s = .next (s.raiseError e) := by
  rw [exec_eq, h]

/-- Past its checks every command is its memory phase; NOP's, with empty regions, stores memory as it is. -/
theorem exec_of_check_none {i : Instr} {s : State} (h : instrCheck s.blk.latched i = none) :
    exec i s = s.accessMemory (instrRegions s.blk.latched i) (commandSampleBad s i) (commandResult s i)
      (commandCount s.blk.latched i) := by
  rw [exec_eq, h]
  cases i <;> rfl

/-- An execution error leaves free values in the destination region (R146, R148). -/
theorem exec_of_accessError {i : Instr} {s : State} {e : ErrCode} (h : instrCheck s.blk.latched i = none)
    (hdev : s.onDevice (instrRegions s.blk.latched i) = false)
    (herr : s.accessError (instrRegions s.blk.latched i) (commandSampleBad s i) = some e) :
    exec i s = .next ((s.scramble (instrRegions s.blk.latched i).dst).raiseError e) := by
  rw [exec_of_check_none h, accessMemory_eq _ _ _ _ _ hdev, herr]

/-- Without an execution error the command stores its result and completes (R90). -/
theorem exec_of_accessError_none {i : Instr} {s : State} (h : instrCheck s.blk.latched i = none)
    (hdev : s.onDevice (instrRegions s.blk.latched i) = false)
    (herr : s.accessError (instrRegions s.blk.latched i) (commandSampleBad s i) = none) :
    exec i s = .next ((s.setMem (commandResult s i)).complete (commandCount s.blk.latched i)) := by
  rw [exec_of_check_none h, accessMemory_eq _ _ _ _ _ hdev, herr]

/-- Settles O38: past its checks the command begins its memory phase, which a device refuses. -/
theorem deviceRegionIsRefused : Obligations.DeviceRegionIsRefused := by
  intro s i _ hcheck hdev
  rw [exec_of_check_none hcheck]
  exact if_pos hdev

/-! ### The frame of a command (R55, R90) -/

/-- A command that passed its checks passed the region checks (R142). -/
theorem instrCheck_regions {l : Latched} {i : Instr} (h : instrCheck l i = none) :
    regionError (instrRegions l i) = none := by
  cases i with
  | nop => rfl
  | unpack12 => exact ((unpackCheck_none_iff l).mp h).2
  | pack12 => exact ((packCheck_none_iff l).mp h).2
  | debayer c => exact ((debayerCheck_none_iff l).mp h).2

/-- A command that passed its checks has its regions apart (R144). -/
theorem instrCheck_apart {l : Latched} {i : Instr} (h : instrCheck l i = none) :
    (instrRegions l i).src.overlaps (instrRegions l i).dst = false := by
  obtain ⟨_, _, _, _, hapart⟩ := (regionError_none_iff _).mp (instrCheck_regions h)
  exact hapart

/-- Of two regions that are apart, the second holds no address of the first. -/
theorem Region.has_eq_false_of_apart {r q : Region} (h : r.overlaps q = false) {a : Nat} (ha : r.has a = true) :
    q.has a = false := by
  by_contra hq
  rw [Bool.not_eq_false] at hq
  rw [(Region.overlaps_iff_share r q).mpr ⟨a, ha, hq⟩] at h
  cases h

/-- A command leaves its source region as it was: its checks failed, or keep the regions apart (R55, R144). -/
theorem exec_source {i : Instr} {s t : State} (h : exec i s = .next t) {a : Nat}
    (ha : (instrRegions s.blk.latched i).src.has a = true) : Memory.read t.mem a = Memory.read s.mem a := by
  cases hcheck : instrCheck s.blk.latched i with
  | some e =>
    obtain rfl := Host.Outcome.next.inj ((exec_of_check hcheck).symm.trans h)
    rfl
  | none => exact exec_mem h a (Region.has_eq_false_of_apart (instrCheck_apart hcheck) ha)

/-- Settles O27: what a completion step leaves alone, field by field, and in memory. -/
theorem commandFrame : Obligations.CommandFrame := by
  intro i s t h
  obtain ⟨hsame, _, _⟩ := exec_blk h
  exact ⟨hsame, exec_around h, exec_mem h, fun a ha => exec_source h ha⟩

/-! ### What a command reads (R55, R128) -/

/-- The cell at `a` is made of the bytes at `a` and `a + 1` (R52). -/
theorem Memory.readCell_congr {m n : Memory} {a : Nat} (hlow : Memory.read m a = Memory.read n a)
    (hhigh : Memory.read m (a + 1) = Memory.read n (a + 1)) : Memory.readCell m a = Memory.readCell n a := by
  rw [Memory.readCell, hlow, hhigh, Memory.readCell]

/-- Lanes that give the same bytes leave the same bytes where they write, whatever memory they write to. -/
theorem Memory.read_writeLanes_congr {m n : Memory} {dst stride count : Nat} {lane lane' : Nat → List Byte}
    (hlen : ∀ k, (lane k).length = stride) (hlane : ∀ k < count, lane k = lane' k) {a : Nat}
    (ha : Region.has { start := dst, size := stride * count } a = true) :
    Memory.read (Memory.writeLanes m dst stride lane (List.range count)) a =
      Memory.read (Memory.writeLanes n dst stride lane' (List.range count)) a := by
  have hsame : Memory.writeLanes n dst stride lane' (List.range count) =
      Memory.writeLanes n dst stride lane (List.range count) :=
    List.foldl_ext _ _ _ fun acc k hk => by rw [hlane k (List.mem_range.mp hk)]
  have hin := (Region.has_iff _ _).mp ha
  rw [hsame, Memory.read_writeLanes _ _ _ _ _ fun k _ => hlen k, Memory.read_writeLanes _ _ _ _ _ fun k _ => hlen k,
    if_pos hin, if_pos hin]

section
variable {s : State} {i : Instr} {m : Memory}
  (hm : ∀ a, (instrRegions s.blk.latched i).src.has a = true → Memory.read m a = Memory.read s.mem a)
include hm

/-- Whether SAMPLE_RANGE applies is a question to the source region alone (R146). -/
theorem commandSampleBad_setMem : commandSampleBad (s.setMem m) i = commandSampleBad s i := by
  cases i with
  | pack12 =>
    simp only [commandSampleBad, State.sampleTooLarge]
    rw [Bool.eq_iff_iff, List.any_eq_true, List.any_eq_true]
    refine exists_congr fun k => and_congr_right fun hk => ?_
    have hk := List.mem_range.mp hk
    have hcell : Memory.readCell (s.setMem m).mem (s.blk.latched.src.toNat + 2 * k) =
        Memory.readCell s.mem (s.blk.latched.src.toNat + 2 * k) := by
      apply Memory.readCell_congr <;> apply hm <;>
        (simp only [Region.has_iff, instrRegions, packRegions, State.setMem_blk] at hk ⊢; omega)
    rw [State.setMem_blk, hcell]
    rfl
  | _ => rfl

/-- The bytes a command stores come from its source region alone (R55, R111, R128). -/
theorem commandResult_setMem {a : Nat} (ha : (instrRegions s.blk.latched i).dst.has a = true) :
    Memory.read (commandResult (s.setMem m) i) a = Memory.read (commandResult s i) a := by
  cases i with
  | nop => exact absurd ((Region.has_iff _ _).mp ha) (by simp [instrRegions, noRegions])
  | unpack12 =>
    exact Memory.read_writeLanes_congr (unpackLane_length _ _) (fun k hk => unpackLane_congr hm hk) ha
  | pack12 => exact Memory.read_writeLanes_congr (packLane_length _ _) (fun k hk => packLane_congr hm hk) ha
  | debayer c =>
    refine Memory.read_writeLanes_congr (debayerLane_length _ _ c _ _) (fun k hk => debayerLane_congr hm c hk) ?_
    simpa only [instrRegions, debayerRegions, State.setMem_blk, Nat.mul_assoc] using ha

end

/-- Settles O28: of memory, a completion step asks only whether a sample is too large and what its lanes store, and both come
from the source region. -/
theorem commandReadsOnlySource : Obligations.CommandReadsOnlySource := by
  intro i s t m hm h
  have herrs : (s.setMem m).accessError (instrRegions s.blk.latched i) (commandSampleBad (s.setMem m) i) =
      s.accessError (instrRegions s.blk.latched i) (commandSampleBad s i) := by
    rw [commandSampleBad_setMem hm]
    rfl
  rcases exec_next h with ⟨e, hcheck, rfl⟩ | ⟨e, hcheck, hdev, herr, rfl⟩ | ⟨hcheck, hdev, herr, rfl⟩
  · exact ⟨_, exec_of_check (s := s.setMem m) hcheck, rfl, fun hdone => by cases hdone⟩
  · exact ⟨_, exec_of_accessError (s := s.setMem m) hcheck hdev (herrs.trans herr), rfl, fun hdone => by cases hdone⟩
  · exact ⟨_, exec_of_accessError_none (s := s.setMem m) hcheck hdev (herrs.trans herr), rfl,
      fun _ _ => commandResult_setMem hm⟩

/-! ### The block's own window (R51) -/

/-- A region that meets the block's own window has a byte that is not admitted (R51). -/
theorem Region.not_admitted_of_window {s : State} {r : Region} (k : AccessKind)
    (h : r.overlaps s.blk.window = true) : ∃ a, r.has a = true ∧ s.admits k a = false := by
  obtain ⟨a, ha, hwin⟩ := (Region.overlaps_iff_share _ _).mp h
  exact ⟨a, ha, State.admits_ownWindow hwin⟩

theorem admitsRegions_of_window {s : State} {r : Regions}
    (h : r.src.overlaps s.blk.window = true ∨ r.dst.overlaps s.blk.window = true) : s.admitsRegions r = false := by
  rw [← Bool.not_eq_true, State.admitsRegions_iff]
  rintro ⟨hsrc, hdst⟩
  rcases h with h | h
  · obtain ⟨a, ha, hadm⟩ := Region.not_admitted_of_window .read h
    exact absurd (hsrc a ha) (Bool.eq_false_iff.mp hadm)
  · obtain ⟨a, ha, hadm⟩ := Region.not_admitted_of_window .write h
    exact absurd (hdst a ha) (Bool.eq_false_iff.mp hadm)

/-- Where a byte is not admitted the execution error is BUS_ERROR, or SAMPLE_RANGE where that applies too (R147). -/
theorem accessError_of_not_admitted {s : State} {r : Regions} {bad : Bool} {e : ErrCode}
    (h : s.admitsRegions r = false) (he : s.accessError r bad = some e) :
    e = .busError ∨ (bad = true ∧ e = .sampleRange) := by
  cases bad with
  | false =>
    simp only [State.accessError, h, Option.some.injEq] at he
    exact .inl he.symm
  | true => exact (accessError_range he).symm.imp_right fun he => ⟨rfl, he⟩

theorem commandSampleBad_iff (s : State) (i : Instr) :
    commandSampleBad s i = true ↔ i = .pack12 ∧ s.sampleTooLarge s.blk.latched = true := by
  cases i <;> simp [commandSampleBad]

/-- A command with a region that meets the block's own window ends with an error (R51, R146, R147). -/
theorem exec_of_window {i : Instr} {s t : State} (h : exec i s = .next t)
    (hwin : (instrRegions s.blk.latched i).src.overlaps s.blk.window = true ∨
      (instrRegions s.blk.latched i).dst.overlaps s.blk.window = true) :
    t.blk.done = false ∧ t.blk.err = true ∧
      (instrCheck s.blk.latched i = none →
        t.blk.errCode = 8#4 ∨ (i = .pack12 ∧ s.sampleTooLarge s.blk.latched = true ∧ t.blk.errCode = 2#4)) := by
  have hadm := admitsRegions_of_window hwin
  rcases exec_next h with ⟨e, hcheck, rfl⟩ | ⟨e, _, _, herr, rfl⟩ | ⟨_, _, herr, rfl⟩
  · exact ⟨rfl, rfl, fun hnone => by rw [hnone] at hcheck; cases hcheck⟩
  · refine ⟨rfl, rfl, fun _ => ?_⟩
    rcases accessError_of_not_admitted hadm herr with rfl | ⟨hbad, rfl⟩
    · exact .inl rfl
    · obtain ⟨hpack, hlarge⟩ := (commandSampleBad_iff s i).mp hbad
      exact .inr ⟨hpack, hlarge, rfl⟩
  · rw [((accessError_none_iff _ _ _).mp herr).2] at hadm
    cases hadm

/-- No command writes a byte of the block's own window: only admitted bytes are written (R51). -/
theorem exec_mem_window {i : Instr} {s t : State} (h : exec i s = .next t) {a : Nat} (ha : s.blk.window.has a = true) :
    Memory.read t.mem a = Memory.read s.mem a := by
  have hadm : s.admits .write a = false := State.admits_ownWindow ha
  rcases exec_next h with ⟨e, _, rfl⟩ | ⟨e, _, _, _, rfl⟩ | ⟨_, _, herr, rfl⟩
  · rfl
  · rw [State.raiseError_mem, State.scramble_mem, Memory.read_scramble, hadm, Bool.and_false, if_neg Bool.false_ne_true]
  · obtain ⟨_, hdst⟩ := (State.admitsRegions_iff _ _).mp ((accessError_none_iff _ _ _).mp herr).2
    refine commandResult_agreeOutside s i a (Bool.eq_false_iff.mpr fun hin => ?_)
    rw [hdst a hin] at hadm
    cases hadm

/-- Settles O37: `State.admits_ownWindow`, `exec_of_window` and `exec_mem_window`. -/
theorem ownWindowIsNeverReached : Obligations.OwnWindowIsNeverReached :=
  ⟨fun _ _ _ => State.admits_ownWindow, fun _ _ _ h => ⟨exec_of_window h, fun _ => exec_mem_window h⟩⟩

end Sys2Proof.Machine
end

section
/-! PROOFS. The host's accesses, to a register and to memory, and the turns and resets of the other blocks (20_memory.md R61,
R63, R69; 40_control.md R85; 70_reset_and_hazards.md R176). -/

namespace Sys2Proof.Machine

/-! ### A register of the focused block (R63, R69, R79, R85) -/

section
variable {s : State} (hb : s.blk.port.base.toNat + windowBytes ≤ addressSpace)
include hb

/-- A read of a register returns it; one of STATUS may observe completion (R63, R85). -/
theorem hostAccess_read_register (r : Reg) :
    s.hostAccess (.read (r.address s.blk.port.base) .word) =
      .next ((s.setBlk (s.blk.afterRead r)).setLastRead (.word (s.blk.readReg r))) :=
  (hostAccess_read_offset hb r.offset_fits.1 r.offset_fits.2).trans (readWindow_offset s r)

theorem hostAccess_write_register (r : Reg) (v : Word) :
    s.hostAccess (.write (r.address s.blk.port.base) (.word v)) = s.writeWindow r.offset v :=
  hostAccess_write_offset v hb r.offset_fits.1 r.offset_fits.2

end

/-- Settles O13: a read changes at most what the host knows of the block (`Block.afterRead_eq`), a write is
`Block.writeReg`. -/
theorem hostAccessesRegister : Obligations.HostAccessesRegister := by
  intro s rest r v hb
  refine ⟨fun ha => ?_, fun hctrl ha => ?_⟩
  · rw [step_of_event ha, ← Block.afterRead_eq]
    exact hostAccess_read_register (s := s.setAgenda rest) hb r
  · rw [step_of_event ha]
    exact (hostAccess_write_register (s := s.setAgenda rest) hb r v).trans (writeWindow_offset hctrl v)

/-- A GO to an idle block starts its command (R24, R87). -/
theorem Block.writeReg_ctrl_of_go {b : Block} {v : Word} (hv : v.getLsbD 0 = true) (hidle : b.phase = .idle) :
    b.writeReg .ctrl v = b.start := by
  simp only [Block.writeReg, Block.writeCtrl, if_pos hv, hidle]

/-- A GO whose command would race is refused (R69). -/
theorem writeWindow_racing_go {s : State} {v : Word} (hv : v.getLsbD 0 = true) (hidle : s.blk.phase = .idle)
    (hrace : (s.setBlk s.blk.start).racesOthers = true) :
    s.writeWindow Reg.ctrl.offset v = .refused .blockRace := by
  simp only [State.writeWindow, Reg.ofOffset_offset, Block.writeReg_ctrl_of_go hv hidle]
  exact if_pos (by simp [hrace, hidle])

/-- Settles O25: the running block `b` is one the started command races with. -/
theorem racingGoIsRefused : Obligations.RacingGoIsRefused := by
  intro s rest v b hb ha hv hidle hmem hbusy hconflict
  have hrace : ((s.setAgenda rest).setBlk s.blk.start).racesOthers = true :=
    List.any_eq_true.mpr ⟨b, hmem, by simpa [hbusy] using hconflict⟩
  rw [step_of_event ha]
  exact (hostAccess_write_register (s := s.setAgenda rest) hb .ctrl v).trans (writeWindow_racing_go hv hidle hrace)

/-! ### A host that polls BUSY (R63, R79, R80) -/

/-- A look at an idle block observes all its commands (R63). -/
theorem Block.observe_of_idle {b : Block} (h : b.phase = .idle) : b.observe = { b with unobserved := [] } := by
  rw [Block.observe, (Block.not_busy_iff b).mpr h]
  rfl

/-- A look at a running block observes nothing (R63). -/
theorem Block.observe_of_busy {b : Block} (h : b.phase = .busy) : b.observe = b := by
  rw [Block.observe, (Block.busy_iff b).mpr h]
  rfl

/-- The state after a host read of the focused block's STATUS. -/
def State.look (s : State) : State := (s.setBlk s.blk.observe).setLastRead (.word (s.blk.readReg .status))

theorem hostAccess_read_status {s : State} (hb : s.blk.port.base.toNat + windowBytes ≤ addressSpace) :
    s.hostAccess (.read (Reg.status.address s.blk.port.base) .word) = .next s.look :=
  hostAccess_read_register hb .status

/-- BUSY is bit 0 of STATUS, so a look finds BUSY = 0 exactly while the block is idle (R25, R79). -/
theorem State.look_polled (s : State) : s.look.polled 1#32 0#32 = !s.blk.busy := by
  change (s.blk.statusWord &&& 1#32 == 0#32) = !s.blk.busy
  rw [BitVec.and_one_eq_setWidth_ofBool_getLsbD, Block.getLsbD_statusWord_zero]
  cases s.blk.busy <;> decide

/-- A host that polls goes on if the word it read is the one it waits for, and else looks again (R79). -/
theorem step_poll {s t : State} {rest : List Event} {a mask value : Word} (ha : s.agenda = .poll a mask value :: rest)
    (hread : (s.setAgenda rest).hostAccess (.read a .word) = .next t) :
    step s = .next (if t.polled mask value then t else t.waitAgain (.poll a mask value)) := by
  rw [step_of_event ha, State.runEvent, hread, mapNext]

/-- Settles O55: the poll is a look at STATUS, which goes on while the block is idle. -/
theorem waitEndsWhenIdle : Obligations.WaitEndsWhenIdle := by
  intro s rest hb ha
  have hstep := step_poll ha (hostAccess_read_status (s := s.setAgenda rest) hb)
  rw [State.look_polled, State.look, State.setAgenda_blk] at hstep
  refine ⟨fun hidle => ?_, fun hbusy => ?_⟩
  · rw [hstep, (Block.not_busy_iff _).mpr hidle, Block.observe_of_idle hidle]
    rfl
  · rw [hstep, (Block.busy_iff _).mpr hbusy, Block.observe_of_busy hbusy, ha]
    rfl

/-! ### Memory (R61, R79, R176) -/

theorem Memory.writeBytes_append (m : Memory) (a : Nat) (vs ws : List Byte) :
    Memory.writeBytes m a (vs ++ ws) = Memory.writeBytes (Memory.writeBytes m a vs) (a + vs.length) ws := by
  induction vs generalizing m a with
  | nil => rfl
  | cons v vs ih =>
    rw [List.cons_append, Memory.writeBytes, ih, Memory.writeBytes, List.length_cons, Nat.add_assoc, Nat.add_comm 1]

theorem Memory.readWord_writeWord (m : Memory) (a : Nat) (v : Word) :
    Memory.readWord (Memory.writeBytes m a (wordBytes v)) a = v := by
  have hlow : Memory.readCell (Memory.writeBytes m a (wordBytes v)) a = v.extractLsb' 0 16 := by
    rw [wordBytes, Memory.writeBytes_append]
    refine (Memory.readCell_congr ?_ ?_).trans (m.readCell_writeCell a (v.extractLsb' 0 16))
    all_goals exact Memory.writeBytes_agreeOutside _ _ _ _ (by simp [Region.has, cellBytes_length])
  have hhigh : Memory.readCell (Memory.writeBytes m a (wordBytes v)) (a + 2) = v.extractLsb' 16 16 := by
    rw [wordBytes, Memory.writeBytes_append, cellBytes_length, Memory.readCell_writeCell]
  rw [Memory.readWord, hlow, hhigh]
  exact (BitVec.extractLsb'_append_extractLsb'_eq_extractLsb' (Nat.zero_add 16).symm).trans BitVec.extractLsb'_eq_self

/-- A value just stored reads back, at its own width (R52; log entry 6 for a word). -/
theorem Memory.readDatum_write (m : Memory) (a : Nat) (d : Datum) :
    Memory.readDatum (Memory.writeBytes m a d.toBytes) a d.width = d := by
  cases d with
  | byte v => exact congrArg Datum.byte (by simp [Datum.toBytes, Memory.read_writeBytes])
  | cell v => exact congrArg Datum.cell (m.readCell_writeCell a v)
  | word v => exact congrArg Datum.word (m.readWord_writeWord a v)

/-- What a host access to memory does when nothing stops it: it returns the bytes there, or stores its own (R79). -/
def State.transfer (s : State) : HostAccess → State
  | .read addr w => s.setLastRead (Memory.readDatum s.mem addr.toNat w)
  | .write addr d => s.setMem (Memory.writeBytes s.mem addr.toNat d.toBytes)

section
variable {s : State} {a : HostAccess} (hfits : a.region.start + a.region.size ≤ addressSpace)
  (hbus : ∀ x, a.region.has x = true → busAdmits s.busMap a.kind x = true ∧ busDevice s.busMap x = false)
include hfits hbus

/-- A host access that the platform admits is stopped by a race alone (R60, R61, R176). -/
theorem accessHostMemory_of_admitted :
    s.accessHostMemory a =
      if s.blocks.any (fun b => b.races a) then .refused .hostRace else .next (s.transfer a) := by
  have hadm : a.region.all (busAdmits s.busMap a.kind) = true := (Region.all_iff _ _).mpr fun x hx => (hbus x hx).1
  have hdev : a.region.any (busDevice s.busMap) = false := by
    rw [← Bool.not_eq_true, Region.any_iff]
    rintro ⟨x, hx, hd⟩
    exact absurd hd (by simp [(hbus x hx).2])
  unfold State.accessHostMemory
  rw [if_neg (Nat.not_lt.mpr hfits), hadm, hdev]
  cases a <;> rfl

/-- A step whose event is a host access outside every window, which the platform admits (R61, R86). -/
theorem step_hostMemory {rest : List Event} (ha : s.agenda = .bus a :: rest)
    (hwin : ∀ b ∈ s.blocks, b.window.overlaps a.region = false) :
    step s =
      if s.blocks.any (fun b => b.races a) then .refused .hostRace else .next ((s.setAgenda rest).transfer a) := by
  have hnone : (s.setAgenda rest).windowTouched a = none := windowTouched_none hwin
  rw [step_of_event ha, State.runEvent, State.hostAccess, hnone]
  exact accessHostMemory_of_admitted (s := s.setAgenda rest) hfits hbus

end

/-- Settles O54: the byte shared with the region is the race. -/
theorem hostRaceIsRefused : Obligations.HostRaceIsRefused := by
  intro s rest a b l x ha hwin hfits hbus hmem hl hx hregion
  rw [step_hostMemory hfits hbus ha hwin, if_pos]
  exact List.any_eq_true.mpr ⟨b, hmem, Block.races_iff.mpr ⟨l, hl, Latched.races_iff.mpr ⟨x, hx, hregion⟩⟩⟩

/-- Settles O53: no command's region meets the access, so it is the transfer. -/
theorem hostAccessesMemory : Obligations.HostAccessesMemory := by
  intro s rest a ha hwin hfits hbus hapart
  have hrace : s.blocks.any (fun b => b.races a) = false := by
    rw [List.any_eq_false]
    intro b hmem hr
    obtain ⟨l, hl, hraces⟩ := Block.races_iff.mp hr
    obtain ⟨x, hx, hregion⟩ := Latched.races_iff.mp hraces
    obtain ⟨hdst, hsrc⟩ := hapart b hmem l hl x hx
    rcases hregion with h | ⟨hkind, h⟩
    · rw [hdst] at h; cases h
    · rw [hsrc hkind] at h; cases h
  have hstep := step_hostMemory hfits hbus ha hwin
  rw [hrace, if_neg Bool.false_ne_true] at hstep
  refine ⟨?_, ?_⟩
  · rintro addr w rfl
    exact hstep
  · rintro addr d rfl
    refine ⟨_, hstep, rfl, rfl, rfl, rfl, rfl, rfl, Memory.readDatum_write _ _ d, ?_⟩
    have hframe := Memory.writeBytes_agreeOutside s.mem addr.toNat d.toBytes
    rwa [Datum.toBytes_length] at hframe

/-! ### The other blocks (R69, R159) -/

/-- A step of block `k + 1` brings it into focus and back: it changes that block alone. -/
theorem onBlock_others {s t : State} {k : Nat} {f : State → Host.Outcome State Fault Refusal}
    (hf : ∀ {u v : State}, f u = .next v → LocalStep u v) (h : s.onBlock (k + 1) f = .next t) :
    t.blk = s.blk ∧ ∃ c, t.others = s.others.set k c := by
  rcases onBlock_local hf h with ⟨hk, _⟩ | ⟨j, u, hk, hj, hl, rfl⟩
  · cases hk
  · obtain rfl := Nat.succ.inj hk
    have hothers : u.others = s.others.set k s.blk := by rw [hl.others, swap_eq hj]
    have hlen : k < u.others.length := by rw [hothers, List.length_set]; exact hj
    rw [swap_eq hlen]
    exact ⟨by simp [hothers], u.blk, by simp [hothers]⟩

/-- Settles O60: an engine's turn and a reset are steps of their block. -/
theorem blocksAreIndependent : Obligations.BlocksAreIndependent := by
  intro s t rest k ha h
  have hblock : t.blk = s.blk ∧ ∃ c, t.others = s.others.set k c := by
    rcases ha with ha | ha
    · exact onBlock_others (s := s.setAgenda rest) engineTurn_local ((step_of_event ha).symm.trans h)
    · exact onBlock_others (s := s.setAgenda rest) assertReset_local ((step_of_event ha).symm.trans h)
  obtain ⟨hblk, c, hothers⟩ := hblock
  exact ⟨hblk, fun j hj => by rw [hothers, List.getElem?_set_ne hj.symm]⟩

end Sys2Proof.Machine
end

section
/-! PROOFS. The command word (30_encoding.md R70 to R77): what each opcode decodes to, which bits of a word decoding reads,
and a reserved opcode from CMD to its completion step. -/

namespace Sys2Proof

variable {v w : Word}

/-! ### Decoding by opcode (R72, R73) -/

theorem decode_of_nop (h : opField w = 0#4) : decode w = .command .nop := by simp [decode, h]

theorem decode_of_unpack12 (h : opField w = 1#4) : decode w = .command .unpack12 := by simp [decode, h]

theorem decode_of_pack12 (h : opField w = 2#4) : decode w = .command .pack12 := by simp [decode, h]

theorem decode_of_debayer (h : opField w = 3#4) :
    decode w = .command (.debayer (CfaPattern.ofBits (cfaField w))) := by simp [decode, h]

/-- Opcodes 4 to 15 are reserved (R72). -/
theorem decode_of_reserved (h : 4 ≤ (opField w).toNat) : decode w = .illegal (opField w) := by
  have hne : ∀ op : BitVec 4, op.toNat < 4 → opField w ≠ op := fun op hop heq =>
    Nat.not_le.mpr hop (heq ▸ h)
  rw [decode, if_neg (hne 0#4 (by decide)), if_neg (hne 1#4 (by decide)), if_neg (hne 2#4 (by decide)),
    if_neg (hne 3#4 (by decide))]

/-- NOP, UNPACK12 and PACK12 have no operand: their opcode alone decides (R76). -/
theorem decode_eq_of_opField_lt_three (hop : opField v = opField w) (hlt : (opField w).toNat < 3) :
    decode v = decode w := by
  have hcases : opField w = 0#4 ∨ opField w = 1#4 ∨ opField w = 2#4 := by bv_omega
  rcases hcases with h | h | h
  · rw [decode_of_nop h, decode_of_nop (hop.trans h)]
  · rw [decode_of_unpack12 h, decode_of_unpack12 (hop.trans h)]
  · rw [decode_of_pack12 h, decode_of_pack12 (hop.trans h)]

/-! ### Encoding, then decoding (R70) -/

@[simp] theorem CfaPattern.ofBits_toBits (c : CfaPattern) : CfaPattern.ofBits c.toBits = c := by cases c <;> rfl

theorem opField_encode_debayer (c : CfaPattern) : opField (encode (.debayer c)) = 3#4 := by cases c <;> rfl

theorem cfaField_encode_debayer (c : CfaPattern) : cfaField (encode (.debayer c)) = c.toBits := by cases c <;> rfl

theorem decode_encode (i : Instr) : decode (encode i) = .command i := by
  cases i with
  | nop => exact decode_of_nop rfl
  | unpack12 => exact decode_of_unpack12 rfl
  | pack12 => exact decode_of_pack12 rfl
  | debayer c =>
    rw [decode_of_debayer (opField_encode_debayer c), cfaField_encode_debayer, CfaPattern.ofBits_toBits]

/-- A field inside the low six bits of a word does not see what stands above them. -/
theorem extractLsb'_append_low_six (junk : BitVec 26) (w : Word) {start len : Nat} (h : start + len ≤ 6) :
    (junk ++ w.extractLsb' 0 6).extractLsb' start len = w.extractLsb' start len := by
  rw [BitVec.extractLsb'_append_eq_of_add_le h, BitVec.extractLsb'_extractLsb'_of_le h]

/-- Decoding reads the low six bits of a word (R70, R77). -/
theorem decode_append_low_six (junk : BitVec 26) (w : Word) : decode (junk ++ w.extractLsb' 0 6) = decode w :=
  Machine.decode_congr (extractLsb'_append_low_six junk w (by decide)) (extractLsb'_append_low_six junk w (by decide))

/-- Settles O2: decoding reads the six bits the encoded word keeps, and they hold the opcode and the pattern. -/
theorem encodeThenDecode : Obligations.EncodeThenDecode :=
  fun i junk _ => (decode_append_low_six junk (encode i)).trans (decode_encode i)

/-- Settles O1: `decode` opcode by opcode, with `CfaPattern.ofBits` at the four values of the CFA field. -/
theorem decodeByOpcode : Obligations.DecodeByOpcode := by
  intro w
  refine ⟨decode_of_nop, decode_of_unpack12, decode_of_pack12, fun hop => ?_, decode_of_reserved⟩
  have hdebayer := decode_of_debayer (w := w) hop
  refine ⟨fun hcfa => ?_, fun hcfa => ?_, fun hcfa => ?_, fun hcfa => ?_⟩ <;>
  · rw [hdebayer, cfaField, hcfa]
    rfl

/-- Settles O3: R81's words are the encoder's own; G25's set the CFA field where it selects nothing; two are reserved. -/
theorem specWordsDecode : Obligations.SpecWordsDecode :=
  ⟨(Laws.TableWord.nop rfl).2, (Laws.TableWord.unpack12 rfl).2, (Laws.TableWord.pack12 rfl).2,
    (Laws.TableWord.debayer .rggb rfl).2, (Laws.TableWord.debayer .bggr rfl).2, (Laws.TableWord.debayer .grbg rfl).2,
    (Laws.TableWord.debayer .gbrg rfl).2, by decide, by decide, by decide, by decide⟩

end Sys2Proof

namespace Sys2Proof.Machine

/-! ### The latched word (R75, R76) -/

/-- Settles O5: of a latched word bits 5:0 alone can be set, and for these opcodes decoding reads OP alone. -/
theorem cfaIgnoredByOthers : Obligations.CfaIgnoredByOthers := by
  refine ⟨fun l i hi => ?_, fun op c d l hop => decode_eq_of_opField_lt_three ?_ ?_⟩
  · rw [l.getLsbD_commandWord, if_neg (by omega), if_neg (by omega)]
  · rw [Latched.opField_commandWord, Latched.opField_commandWord]
  · rwa [Latched.opField_commandWord]

/-- CMD keeps the six bits of a word that it stores (R23). -/
theorem Block.readReg_writeReg_cmd (b : Block) (v : BitVec 6) :
    (b.writeReg .cmd (v.setWidth 32)).readReg .cmd = v.setWidth 32 := by
  have hstored : (v.setWidth 32).extractLsb' 0 6 = v := by
    rw [BitVec.extractLsb'_setWidth_of_le (by decide), BitVec.extractLsb'_eq_self]
  rw [Block.readReg_cmd, Block.writeReg, hstored]

/-- A command that ends with an error before any memory access changes its outcome alone (R148). -/
theorem raiseError_failsUntouched (s : State) (e : ErrCode) : s.failsUntouched (s.raiseError e) e.bits :=
  ⟨s.blk.completeError_shows e, s.blk.completeError_same e, ⟨rfl, rfl, rfl, rfl⟩, rfl, rfl⟩

/-- Settles O4: CMD holds all six bits, decoding answers every reserved opcode with its number, and the completion step
raises ILLEGAL_OP. -/
theorem reservedOpcode : Obligations.ReservedOpcode := by
  refine ⟨Block.readReg_writeReg_cmd, fun w i hop hcommand => ?_, fun s hop => ?_⟩
  · exact Decoded.noConfusion ((decode_of_reserved hop).symm.trans hcommand)
  · have hillegal := decode_of_reserved (w := s.blk.latched.commandWord) (by rwa [Latched.opField_commandWord])
    exact ⟨_, completionStep_of_illegal hillegal, raiseError_failsUntouched s .illegalOp⟩

end Sys2Proof.Machine
end

section
/-! PROOFS. The completion step (40_control.md R89 to R91): it ends the command of its block or is refused on a device, and
the machine left alone completes its first running command. -/

namespace Sys2Proof.Machine

/-! ### Every command ends (R59, R91) -/

/-- The latched command's regions are those of the command the latched word decodes to (R55). -/
theorem Latched.regions_of_command {l : Latched} {i : Instr} (h : decode l.commandWord = .command i) :
    l.regions = instrRegions l i := by
  simp only [Latched.regions, h]

/-- A command's completion step answers a next state, unless one of its regions lies on a device (R59). -/
theorem exec_next_or_refused (i : Instr) (s : State) :
    (∃ t, exec i s = .next t) ∨
      (exec i s = .refused .deviceRegion ∧ s.onDevice (instrRegions s.blk.latched i) = true) := by
  cases hcheck : instrCheck s.blk.latched i with
  | some e => exact .inl ⟨_, exec_of_check hcheck⟩
  | none =>
    cases hdev : s.onDevice (instrRegions s.blk.latched i) with
    | true => exact .inr ⟨by rw [exec_of_check_none hcheck]; exact if_pos hdev, rfl⟩
    | false =>
      cases herr : s.accessError (instrRegions s.blk.latched i) (commandSampleBad s i) with
      | some e => exact .inl ⟨_, exec_of_accessError hcheck hdev herr⟩
      | none => exact .inl ⟨_, exec_of_accessError_none hcheck hdev herr⟩

/-- A completion step writes the block's outcome alone and ends in phase IDLE (R90). -/
theorem completionStep_blk {s t : State} (h : s.completionStep = .next t) :
    s.blk.sameButOutcome t.blk ∧ t.blk.phase = .idle := by
  rcases completionStep_next h with ⟨i, _, hi⟩ | ⟨_, _, rfl⟩
  · obtain ⟨hsame, hidle, _⟩ := exec_blk hi
    exact ⟨hsame, hidle⟩
  · exact ⟨s.blk.completeError_same _, rfl⟩

/-- Settles O9: a reserved opcode ends with ILLEGAL_OP, a command as `exec_next_or_refused` says. -/
theorem everyCommandEnds : Obligations.EveryCommandEnds := by
  intro s
  cases hdecode : decode s.blk.latched.commandWord with
  | illegal op => exact .inl ⟨_, completionStep_of_illegal hdecode, rfl⟩
  | command i =>
    have hexec := completionStep_of_command hdecode
    rcases exec_next_or_refused i s with ⟨t, ht⟩ | ⟨hrefused, hdev⟩
    · have hstep := hexec.trans ht
      exact .inl ⟨t, hstep, (completionStep_blk hstep).2⟩
    · exact .inr ⟨hexec.trans hrefused, by rwa [Latched.regions_of_command hdecode]⟩

/-! ### The machine left alone (R91, R182) -/

/-- How many commands are running. -/
def State.busyCount (s : State) : Nat := (s.blocks.filter Block.busy).length

/-- Bringing a block into focus ends no command and starts none. -/
theorem swap_busyCount (s : State) (k : Nat) : (s.swap k).busyCount = s.busyCount :=
  ((swap_perm s k).filter _).length_eq

/-- The completion step of a running command leaves one running command fewer. -/
theorem completionStep_busyCount {s t : State} (hbusy : s.blk.phase = .busy) (h : s.completionStep = .next t) :
    t.busyCount + 1 = s.busyCount := by
  have hidle := (completionStep_blk h).2
  simp [State.busyCount, State.blocks, (completionStep_local h).others, hbusy, hidle]

/-- While a command runs, the unattended machine takes the completion step of a running block (R91). -/
theorem unattended_of_busy {s : State} (h : ∃ b ∈ s.blocks, b.phase = .busy) :
    ∃ k b, s.blocks[k]? = some b ∧ b.phase = .busy ∧ s.unattended = s.onBlock k State.completionStep := by
  obtain ⟨b, hb, hbusy⟩ := h
  cases hfirst : s.firstBusy with
  | none => exact absurd (List.findIdx?_eq_none_iff.mp hfirst b hb) (by simp [hbusy])
  | some k =>
    obtain ⟨hk, hkbusy, _⟩ := List.findIdx?_eq_some_iff_getElem.mp hfirst
    exact ⟨k, _, List.getElem?_eq_getElem hk, (Block.busy_iff _).mp hkbusy, by simp only [State.unattended, hfirst]⟩

/-- The completion step of any running block completes its command and leaves the agenda alone. -/
theorem onBlock_completionStep {s t : State} {k : Nat} {b : Block} (hk : s.blocks[k]? = some b)
    (hbusy : b.phase = .busy) (h : s.onBlock k State.completionStep = .next t) :
    t.busyCount + 1 = s.busyCount ∧ t.agenda = s.agenda := by
  rcases onBlock_next h with ⟨rfl, h⟩ | ⟨j, u, rfl, _, hu, rfl⟩
  · obtain rfl : s.blk = b := Option.some.inj hk
    exact ⟨completionStep_busyCount hbusy h, (completionStep_local h).agenda⟩
  · have hfocus : (s.swap j).blk = b := swap_blk_of hk
    rw [swap_busyCount, ← swap_busyCount s j, State.swap_agenda, (completionStep_local hu).agenda, State.swap_agenda]
    exact ⟨completionStep_busyCount (hfocus.symm ▸ hbusy) hu, rfl⟩

/-- Settles O10: the step is the completion step of a running block, whichever place it has. -/
theorem unattendedStepCompletesOne : Obligations.UnattendedStepCompletesOne := by
  intro s t ha hrun h
  obtain ⟨k, b, hk, hbusy, hstep⟩ := unattended_of_busy hrun
  rw [step_of_nil ha, hstep] at h
  obtain ⟨hcount, hagenda⟩ := onBlock_completionStep hk hbusy h
  exact ⟨hcount, hagenda.trans ha⟩

/-! ### NOP (R89) -/

/-- Settles O29: NOP's completion step is the outcome `ok(0)`, and OP 0 decodes to NOP whatever the CFA field. -/
theorem nopCompletes : Obligations.NopCompletes := by
  intro s
  refine ⟨⟨s.complete 0, rfl, Block.completeOk_shows _ (by decide), Block.completeOk_same _ _, ⟨rfl, rfl, rfl, rfl⟩,
    rfl, rfl⟩, fun hop => ?_⟩
  exact completionStep_of_command (decode_of_nop ((Latched.opField_commandWord _).trans hop))

end Sys2Proof.Machine
end

section
/-! PROOFS. The host's accesses to a window (40_control.md R86 to R88, R93): which are refused, what GO does in either phase,
and what clears GO_IGNORED. -/

namespace Sys2Proof.Machine

/-! ### Which accesses a window accepts (R85, R86) -/

/-- The access is 32 bits wide at a multiple-of-4 offset of the block's window (R85). -/
def Block.registerAccess (b : Block) (a : HostAccess) : Prop :=
  a.region.size = 4 ∧ b.window.start ≤ a.region.start ∧ a.region.start - b.window.start + 4 ≤ windowBytes ∧
    (a.region.start - b.window.start) % 4 = 0

/-- Any other access to the window is refused (R86). -/
theorem accessWindow_refused {s : State} {a : HostAccess} (h : ¬s.blk.registerAccess a) :
    s.accessWindow a = .refused .windowAccess := by
  unfold State.accessWindow
  dsimp only
  split
  · next hoff =>
    split
    · exact absurd ⟨rfl, hoff⟩ h
    · exact absurd ⟨rfl, hoff⟩ h
    · rfl
  · rfl

/-- An access to the window that is not refused is a read or a write at an offset of it (R85). -/
theorem accessWindow_next {s t : State} {a : HostAccess} (h : s.accessWindow a = .next t) :
    ∃ addr off, addr.toNat = s.blk.port.base.toNat + off ∧
      ((a = .read addr .word ∧ s.readWindow off = .next t) ∨
        ∃ v, a = .write addr (.word v) ∧ s.writeWindow off v = .next t) := by
  unfold State.accessWindow at h
  dsimp only at h
  split at h
  · next hoff =>
    split at h
    · next addr => exact ⟨addr, _, (Nat.add_sub_cancel' hoff.1).symm, .inl ⟨rfl, h⟩⟩
    · next addr v => exact ⟨addr, _, (Nat.add_sub_cancel' hoff.1).symm, .inr ⟨v, rfl, h⟩⟩
    · cases h
  · cases h

/-- An access that a window accepts lies inside it, so it touches no window apart from that one (R159). -/
theorem Block.registerAccess_not_overlaps {b c : Block} {a : HostAccess} (ha : c.registerAccess a)
    (h : b.port.apart c.port = true) : b.window.overlaps a.region = false := by
  obtain ⟨hsize, hlow, hhigh, _⟩ := ha
  rw [← Bool.not_eq_true, Region.overlaps_iff]
  simp only [Port.apart, decide_eq_true_eq, Block.window, windowBytes] at *
  omega

/-- A step that a block refuses in focus is refused in its place. -/
theorem onBlock_refused {s : State} {k : Nat} {b : Block} {f : State → Host.Outcome State Fault Refusal} {r : Refusal}
    (hk : s.blocks[k]? = some b) (hf : ∀ u : State, u.blk = b → f u = .refused r) : s.onBlock k f = .refused r := by
  cases k with
  | zero => exact hf s (Option.some.inj hk)
  | succ j => rw [onBlock_succ hk, hf _ (swap_blk_of hk), mapNext]

/-- An access that its window does not accept is refused (R86). -/
theorem hostAccess_refused {s : State} {a : HostAccess} {k : Nat} {b : Block} (htouch : s.windowTouched a = some k)
    (hk : s.blocks[k]? = some b) (h : ¬b.registerAccess a) : s.hostAccess a = .refused .windowAccess := by
  simp only [State.hostAccess, htouch]
  exact onBlock_refused hk fun u hu => accessWindow_refused (by rwa [hu])

/-- An access that touches some window is an access to one that it touches (R22). -/
theorem windowTouched_of_overlaps {s : State} {a : HostAccess} {b : Block} (hb : b ∈ s.blocks)
    (h : b.window.overlaps a.region = true) :
    ∃ k c, s.windowTouched a = some k ∧ s.blocks[k]? = some c := by
  cases htouch : s.windowTouched a with
  | none => exact absurd h (by simpa using List.findIdx?_eq_none_iff.mp htouch b hb)
  | some k => exact ⟨k, _, rfl, List.getElem?_eq_getElem (List.findIdx?_eq_some_iff_getElem.mp htouch).1⟩

/-- On a well-formed platform the windows of two different blocks share no byte (R159). -/
theorem ports_apart {s : State} (h : s.platform.wf = true) {b c : Block} (hb : b ∈ s.blocks) (hc : c ∈ s.blocks)
    (hne : b ≠ c) : b.port.apart c.port = true := by
  have : Std.Symm fun b c : Block => b.port.apart c.port = true :=
    ⟨fun b c hap => by simpa only [Port.apart, decide_eq_true_eq, or_comm] using hap⟩
  exact (windows_pairwise h).forall hb hc hne

/-- On a well-formed platform an access that touches a window which does not accept it is refused, also where another window
comes first (R86, log entry 14). -/
theorem hostAccess_refused_of_wf {s : State} {a : HostAccess} {b : Block} (hwf : s.platform.wf = true)
    (hb : b ∈ s.blocks) (hover : b.window.overlaps a.region = true) (h : ¬b.registerAccess a) :
    s.hostAccess a = .refused .windowAccess := by
  obtain ⟨k, c, htouch, hk⟩ := windowTouched_of_overlaps hb hover
  refine hostAccess_refused htouch hk fun hc => ?_
  by_cases hbc : b = c
  · exact h (hbc ▸ hc)
  · have hapart := ports_apart hwf hb (List.mem_of_getElem? hk) hbc
    exact absurd hover (by simp [Block.registerAccess_not_overlaps hc hapart])

/-- Settles O16: a window refuses what is no access to a register, and a host access outside every window is the platform's
memory. -/
theorem windowAccessWidth : Obligations.WindowAccessWidth := by
  refine ⟨fun s rest a b ha hb hover hodd => ?_, fun s t rest a ha hout h => ?_⟩
  · have hnot : ¬b.registerAccess a := fun ⟨hsize, hlow, _, halign⟩ => by omega
    rw [step_of_event ha]
    rcases hb with rfl | ⟨hb, hwf⟩
    · exact hostAccess_refused (s := s.setAgenda rest) (windowTouched_focus hover) rfl hnot
    · exact hostAccess_refused_of_wf (s := s.setAgenda rest) hwf (List.mem_cons_of_mem _ hb) hover hnot
  · have hnone : (s.setAgenda rest).windowTouched a = none := windowTouched_none hout
    rw [step_of_event ha, State.runEvent, State.hostAccess, hnone] at h
    obtain ⟨_, _, ⟨_, _, _, rfl⟩ | ⟨_, _, _, rfl⟩⟩ := accessHostMemory_next h <;> exact ⟨rfl, rfl⟩

/-! ### GO (R87, R88) -/

/-- While the block runs, every write to its window is made: it starts nothing (R88, R94). -/
theorem writeWindow_of_busy {s : State} (h : s.blk.phase = .busy) (r : Reg) (v : Word) :
    s.writeWindow r.offset v = .next (s.setBlk (s.blk.writeReg r v)) := by
  simp only [State.writeWindow, Reg.ofOffset_offset]
  exact if_neg (by simp [h])

/-- A GO whose command keeps apart from the other blocks' running commands starts it (R69, R87). -/
theorem writeWindow_go {s : State} {v : Word} (hv : v.getLsbD 0 = true) (hidle : s.blk.phase = .idle)
    (hapart : ∀ b ∈ s.others, s.blk.start.keepsApart b) :
    s.writeWindow Reg.ctrl.offset v = .next (s.setBlk s.blk.start) := by
  have hfree : (s.setBlk s.blk.start).racesOthers = false :=
    List.any_eq_false.mpr fun b hb => by simpa using hapart b hb rfl
  simp only [State.writeWindow, Reg.ofOffset_offset, Block.writeReg_ctrl_of_go hv hidle]
  exact if_neg (by simp [hfree])

/-- GO latches the command word and the parameters as the host reads them (R23, R31). -/
theorem Block.parameters_eq_readReg (b : Block) :
    b.parameters =
      { op := (b.readReg .cmd).extractLsb' 0 4, cfa := (b.readReg .cmd).extractLsb' 4 2, src := b.readReg .srcAddr
        dst := b.readReg .dstAddr, len := b.readReg .len, w := b.readReg .width, h := b.readReg .height } := by
  rw [Block.readReg_cmd, BitVec.extractLsb'_setWidth_of_le (by decide), BitVec.extractLsb'_setWidth_of_le (by decide)]
  rfl

/-- Settles O22: the GO is found not to race and makes the focused block `Block.start`. -/
theorem goStartsCommand : Obligations.GoStartsCommand := by
  intro s rest v hb ha hv hidle hapart
  have hstep : step s = .next ((s.setAgenda rest).setBlk s.blk.start) :=
    (step_of_event ha).trans <| (hostAccess_write_register (s := s.setAgenda rest) hb .ctrl v).trans <|
      writeWindow_go (s := s.setAgenda rest) hv hidle hapart
  have hbusy : (s.blk.start.readReg .status).getLsbD 0 = true := s.blk.start.getLsbD_statusWord_zero
  exact ⟨_, _, hstep, rfl, rfl, rfl, rfl, rfl, rfl, rfl, hbusy, s.blk.parameters_eq_readReg, rfl⟩

/-- A GO to a running block is dropped and remembered (R88). -/
theorem Block.writeReg_ctrl_of_go_busy {b : Block} {v : Word} (hv : v.getLsbD 0 = true) (hbusy : b.phase = .busy) :
    b.writeReg .ctrl v = { b with goIgnored := true } := by
  simp only [Block.writeReg, Block.writeCtrl, if_pos hv, hbusy]

/-! ### GO_IGNORED stays (R88, R93, R171) -/

theorem Reg.offset_of_ofOffset {off : Nat} {r : Reg} (h : Reg.ofOffset off = some r) : r.offset = off := by
  simpa using List.find?_some h

/-- Of the register writes only one of STATUS with bit 3 set clears GO_IGNORED (R88, R93). -/
theorem Block.writeReg_goIgnored {b : Block} (h : b.goIgnored = true) (r : Reg) (v : Word) :
    (b.writeReg r v).goIgnored = true ∨ (r = .status ∧ v.getLsbD 3 = true) := by
  cases r with
  | status =>
    cases hv : v.getLsbD 3 with
    | true => exact .inr ⟨rfl, rfl⟩
    | false => exact .inl (by rw [Block.writeReg, Block.writeStatus_goIgnored, h, hv]; rfl)
  | ctrl =>
    refine .inl ?_
    unfold Block.writeReg Block.writeCtrl
    dsimp only
    split
    · split
      · exact h
      · rfl
    · exact h
  | _ => exact .inl h

/-- A write to the window that answers a next state wrote the register at its offset, if there is one (R34, R85). -/
theorem writeWindow_blk {s t : State} {off : Nat} {v : Word} (h : s.writeWindow off v = .next t) :
    t.blk = s.blk ∨ ∃ r, r.offset = off ∧ t.blk = s.blk.writeReg r v := by
  unfold State.writeWindow at h
  split at h
  · next r hr =>
    dsimp only at h
    split at h
    · cases h
    · cases h
      exact .inr ⟨r, Reg.offset_of_ofOffset hr, rfl⟩
  · cases h
    exact .inl rfl

/-- A read of the window leaves GO_IGNORED alone (R85). -/
theorem readWindow_goIgnored {s t : State} {off : Nat} (h : s.readWindow off = .next t) :
    t.blk.goIgnored = s.blk.goIgnored := by
  obtain ⟨d, rfl | ⟨r, rfl⟩⟩ := readWindow_next h
  · rfl
  · rw [State.setLastRead_blk, State.setBlk_blk, Block.afterRead_eq]

/-- The access writes a word with bit 3 set to STATUS of a block whose window is at `base` (R93). -/
def HostAccess.clearsGoIgnored (base : Word) (a : HostAccess) : Prop :=
  ∃ addr v, a = .write addr (.word v) ∧ addr.toNat = base.toNat + 0x08 ∧ v.getLsbD 3 = true

/-- An access to the focused block's window keeps a set GO_IGNORED, unless it clears it (R93). -/
theorem accessWindow_goIgnored {s t : State} {a : HostAccess} (hset : s.blk.goIgnored = true)
    (h : s.accessWindow a = .next t) : t.blk.goIgnored = true ∨ a.clearsGoIgnored s.blk.port.base := by
  obtain ⟨addr, off, haddr, ⟨rfl, hread⟩ | ⟨v, rfl, hwrite⟩⟩ := accessWindow_next h
  · exact .inl ((readWindow_goIgnored hread).trans hset)
  · rcases writeWindow_blk hwrite with hblk | ⟨r, rfl, hblk⟩ <;> rw [hblk]
    · exact .inl hset
    · refine (Block.writeReg_goIgnored hset r v).imp_right ?_
      rintro ⟨rfl, hv⟩
      exact ⟨addr, v, rfl, haddr, hv⟩

/-- A step of some block is one of the focused block, or leaves the focused block as it is. -/
theorem onBlock_focus {s t : State} {k : Nat} {f : State → Host.Outcome State Fault Refusal}
    (hf : ∀ {u v : State}, f u = .next v → LocalStep u v) (h : s.onBlock k f = .next t) :
    (k = 0 ∧ f s = .next t) ∨ t.blk = s.blk := by
  cases k with
  | zero => exact .inl ⟨rfl, h⟩
  | succ j => exact .inr (onBlock_others hf h).1

theorem hostAccess_goIgnored {s t : State} {a : HostAccess} (hset : s.blk.goIgnored = true)
    (h : s.hostAccess a = .next t) : t.blk.goIgnored = true ∨ a.clearsGoIgnored s.blk.port.base := by
  rcases hostAccess_next h with ⟨k, _, hw⟩ | ⟨_, hm⟩
  · rcases onBlock_focus accessWindow_local hw with ⟨_, hw⟩ | hblk
    · exact accessWindow_goIgnored hset hw
    · exact .inl (hblk ▸ hset)
  · obtain ⟨_, _, ⟨_, _, _, rfl⟩ | ⟨_, _, _, rfl⟩⟩ := accessHostMemory_next hm <;> exact .inl hset

theorem completionStep_goIgnored {s t : State} (h : s.completionStep = .next t) :
    t.blk.goIgnored = s.blk.goIgnored := by
  obtain ⟨⟨_, _, hgo, _⟩, _⟩ := completionStep_blk h
  exact hgo

/-- An engine's turn leaves GO_IGNORED alone: it is no step, or a completion step (R90). -/
theorem engineTurn_goIgnored {s t : State} (h : s.engineTurn = .next t) : t.blk.goIgnored = s.blk.goIgnored := by
  unfold State.engineTurn at h
  split at h
  · exact completionStep_goIgnored h
  · cases h; rfl

theorem unattended_goIgnored {s t : State} (h : s.unattended = .next t) : t.blk.goIgnored = s.blk.goIgnored := by
  unfold State.unattended at h
  split at h
  · rcases onBlock_focus completionStep_local h with ⟨_, h⟩ | hblk
    · exact completionStep_goIgnored h
    · rw [hblk]
  · cases h; rfl

/-- An event keeps a set GO_IGNORED, unless it is a reset of the block or a write that clears it (R88, R171). -/
theorem runEvent_goIgnored {s t : State} {e : Event} (hset : s.blk.goIgnored = true) (h : s.runEvent e = .next t) :
    t.blk.goIgnored = true ∨ e = .reset 0 ∨ ∃ a, e = .bus a ∧ a.clearsGoIgnored s.blk.port.base := by
  cases e with
  | bus a => exact (hostAccess_goIgnored hset h).imp_right fun hclear => .inr ⟨a, rfl, hclear⟩
  | poll a mask value =>
    obtain ⟨u, hu, rfl⟩ := mapNext_next h
    rcases hostAccess_goIgnored hset hu with hgo | ⟨_, _, hwrite, _⟩
    · exact .inl (by split <;> exact hgo)
    · cases hwrite
  | takeIrq line =>
    cases h
    refine .inl ?_
    split
    · rwa [State.takeLine_blk, Block.taken_eq]
    · exact hset
  | engine k =>
    rcases onBlock_focus engineTurn_local h with ⟨_, h⟩ | hblk
    · exact .inl ((engineTurn_goIgnored h).trans hset)
    · exact .inl (hblk ▸ hset)
  | reset k =>
    rcases onBlock_focus assertReset_local h with ⟨rfl, _⟩ | hblk
    · exact .inr (.inl rfl)
    · exact .inl (hblk ▸ hset)

/-- Settles O23: GO to a running block writes GO_IGNORED alone, and no unattended step and no other event clears it. -/
theorem goWhileBusyIsIgnored : Obligations.GoWhileBusyIsIgnored := by
  refine ⟨fun s rest v hb ha hv hbusy => ?_, fun s t hset h => ?_⟩
  · refine ⟨_, ?_, rfl, rfl⟩
    rw [step_of_event ha, ← Block.writeReg_ctrl_of_go_busy hv hbusy]
    exact (hostAccess_write_register (s := s.setAgenda rest) hb .ctrl v).trans
      (writeWindow_of_busy (s := s.setAgenda rest) hbusy .ctrl v)
  · cases ha : s.agenda with
    | nil =>
      rw [step_of_nil ha] at h
      exact .inl ((unattended_goIgnored h).trans hset)
    | cons e rest =>
      rw [step_of_event ha] at h
      rcases runEvent_goIgnored (s := s.setAgenda rest) hset h with hgo | rfl | ⟨_, rfl, addr, v, rfl, hclear⟩
      · exact .inl hgo
      · exact .inr (.inl ⟨rest, rfl⟩)
      · exact .inr (.inr ⟨addr, v, rest, rfl, hclear⟩)

/-! ### What a write to STATUS clears (R93) -/

theorem Block.writeReg_status_eq (b : Block) (v : Word) :
    b.writeReg .status v =
      { b with
        done := if v.getLsbD 1 then false else b.done
        err := if v.getLsbD 2 then false else b.err
        errCode := if v.getLsbD 2 then 0#4 else b.errCode
        goIgnored := if v.getLsbD 3 then false else b.goIgnored } := by
  have hclear : ∀ flag bit : Bool, (flag && !bit) = if bit then false else flag := by decide
  simp only [Block.writeReg, Block.writeStatus, hclear]

/-- Settles O20: a running command of a consistent block has DONE, ERR and ERRCODE 0 already. -/
theorem statusWriteClears : Obligations.StatusWriteClears := by
  refine ⟨Block.writeReg_status_eq, fun b v hcons hbusy => ?_⟩
  obtain ⟨_, hcode, _, hrun⟩ := hcons
  obtain ⟨hdone, herr, _, _⟩ := hrun hbusy
  simp only [Block.writeReg_status_eq, hdone, herr, hcode herr, ite_self]

end Sys2Proof.Machine
end

section
/-! PROOFS. The values of the 12-bit codec (41_bitpacker.md R100, R101, R110): the formulas over naturals, their ORs as sums,
and each direction as the inverse of the other. -/

namespace Sys2Proof.Machine

/-! ### The formulas of R100 and R101, over naturals -/

/-- A left shift in 16 bits drops nothing where the value shifted has room (R110). -/
theorem shiftLeft_mod_cell {x n i : Nat} (hx : x < 2 ^ n) (h : n + i ≤ 16) : x <<< i % 65536 = x <<< i :=
  Nat.mod_eq_of_lt ((Nat.shiftLeft_lt hx).trans_le (Nat.pow_le_pow_right (by decide) h))

theorem and_low_nibble_lt (x : Nat) : x &&& 0xF < 2 ^ 4 := Nat.and_lt_two_pow x (by decide)

theorem toNat_unpackFirst (b0 b1 : Byte) : (unpackFirst b0 b1).toNat = (b0.toNat <<< 4) ||| (b1.toNat >>> 4) := by
  simp only [unpackFirst, BitVec.toNat_or, BitVec.toNat_shiftLeft, BitVec.toNat_ushiftRight,
    BitVec.toNat_setWidth_of_le (show 8 ≤ 16 by decide), Nat.reducePow,
    shiftLeft_mod_cell b0.isLt (show 8 + 4 ≤ 16 by decide)]

theorem toNat_unpackSecond (b1 b2 : Byte) :
    (unpackSecond b1 b2).toNat = ((b1.toNat &&& 0x0F) <<< 8) ||| b2.toNat := by
  simp only [unpackSecond, BitVec.toNat_or, BitVec.toNat_shiftLeft, BitVec.toNat_and, BitVec.toNat_ofNat,
    BitVec.toNat_setWidth_of_le (show 8 ≤ 16 by decide), Nat.reducePow, Nat.reduceMod,
    shiftLeft_mod_cell (and_low_nibble_lt _) (show 4 + 8 ≤ 16 by decide)]

/-- The two parts of a first sample do not meet, so their OR is their sum (R110). -/
theorem toNat_unpackFirst_eq_add (b0 b1 : Byte) : (unpackFirst b0 b1).toNat = b0.toNat * 16 + b1.toNat / 16 := by
  have h1 := b1.isLt
  have hlow : b1.toNat >>> 4 < 2 ^ 4 := by rw [Nat.shiftRight_eq_div_pow]; omega
  rw [toNat_unpackFirst, ← Nat.shiftLeft_add_eq_or_of_lt hlow, Nat.shiftLeft_eq, Nat.shiftRight_eq_div_pow]

theorem toNat_unpackSecond_eq_add (b1 b2 : Byte) : (unpackSecond b1 b2).toNat = b1.toNat % 16 * 256 + b2.toNat := by
  rw [toNat_unpackSecond, ← Nat.shiftLeft_add_eq_or_of_lt b2.isLt, Nat.shiftLeft_eq,
    show 0x0F = 2 ^ 4 - 1 from rfl, Nat.and_two_pow_sub_one_eq_mod]

theorem unpackFirst_le (b0 b1 : Byte) : (unpackFirst b0 b1).toNat ≤ 4095 := by
  rw [toNat_unpackFirst_eq_add]
  omega

theorem unpackSecond_le (b1 b2 : Byte) : (unpackSecond b1 b2).toNat ≤ 4095 := by
  rw [toNat_unpackSecond_eq_add]
  omega

/-- The third byte of a pair is the low byte of its second sample, whatever that is (R101). -/
theorem toNat_packThird (s1 : Cell) : (packThird s1).toNat = s1.toNat &&& 0xFF := by
  have hlow : s1.toNat &&& 0xFF < 2 ^ 8 := Nat.and_lt_two_pow _ (by decide)
  simp only [packThird, BitVec.toNat_setWidth, BitVec.toNat_and, BitVec.toNat_ofNat, Nat.reducePow, Nat.reduceMod]
  exact Nat.mod_eq_of_lt hlow

theorem toNat_packThird_eq_mod (s1 : Cell) : (packThird s1).toNat = s1.toNat % 256 := by
  rw [toNat_packThird, show 0xFF = 2 ^ 8 - 1 from rfl, Nat.and_two_pow_sub_one_eq_mod]

section
variable {s0 s1 : Cell}

theorem toNat_packFirst (h0 : s0.toNat ≤ 4095) : (packFirst s0).toNat = s0.toNat >>> 4 := by
  rw [packFirst, BitVec.toNat_setWidth, BitVec.toNat_ushiftRight]
  refine Nat.mod_eq_of_lt ?_
  rw [Nat.shiftRight_eq_div_pow]
  omega

theorem toNat_packFirst_eq_div (h0 : s0.toNat ≤ 4095) : (packFirst s0).toNat = s0.toNat / 16 := by
  rw [toNat_packFirst h0, Nat.shiftRight_eq_div_pow]

/-- The two parts of a second byte do not meet, so their OR is their sum (R110). -/
theorem packSecond_or_eq_add (h1 : s1.toNat ≤ 4095) :
    ((s0.toNat &&& 0xF) <<< 4) ||| (s1.toNat >>> 8) = s0.toNat % 16 * 16 + s1.toNat / 256 := by
  have hlow : s1.toNat >>> 8 < 2 ^ 4 := by rw [Nat.shiftRight_eq_div_pow]; omega
  rw [← Nat.shiftLeft_add_eq_or_of_lt hlow, Nat.shiftLeft_eq, Nat.shiftRight_eq_div_pow,
    show 0xF = 2 ^ 4 - 1 from rfl, Nat.and_two_pow_sub_one_eq_mod]

theorem toNat_packSecond (h1 : s1.toNat ≤ 4095) :
    (packSecond s0 s1).toNat = ((s0.toNat &&& 0xF) <<< 4) ||| (s1.toNat >>> 8) := by
  simp only [packSecond, BitVec.toNat_setWidth, BitVec.toNat_or, BitVec.toNat_shiftLeft, BitVec.toNat_and,
    BitVec.toNat_ofNat, BitVec.toNat_ushiftRight, Nat.reducePow, Nat.reduceMod,
    shiftLeft_mod_cell (and_low_nibble_lt _) (show 4 + 4 ≤ 16 by decide)]
  rw [packSecond_or_eq_add h1]
  omega

theorem toNat_packSecond_eq_add (h1 : s1.toNat ≤ 4095) :
    (packSecond s0 s1).toNat = s0.toNat % 16 * 16 + s1.toNat / 256 := by
  rw [toNat_packSecond h1, packSecond_or_eq_add h1]

end

/-- Settles O41: each formula as a sum, with the bound of a sample. -/
theorem codecArithmetic : Obligations.CodecArithmetic :=
  ⟨fun b0 b1 b2 => ⟨toNat_unpackFirst_eq_add b0 b1, unpackFirst_le b0 b1, toNat_unpackSecond_eq_add b1 b2,
      unpackSecond_le b1 b2⟩,
    fun _ s1 h0 h1 => ⟨toNat_packFirst_eq_div h0, toNat_packSecond_eq_add h1, toNat_packThird_eq_mod s1⟩⟩

/-! ### Each direction undoes the other (R101, R109) -/

theorem packFirst_unpackFirst (b0 b1 : Byte) : packFirst (unpackFirst b0 b1) = b0 := by
  apply BitVec.eq_of_toNat_eq
  rw [toNat_packFirst_eq_div (unpackFirst_le b0 b1), toNat_unpackFirst_eq_add]
  omega

theorem packSecond_unpack (b0 b1 b2 : Byte) : packSecond (unpackFirst b0 b1) (unpackSecond b1 b2) = b1 := by
  apply BitVec.eq_of_toNat_eq
  rw [toNat_packSecond_eq_add (unpackSecond_le b1 b2), toNat_unpackFirst_eq_add, toNat_unpackSecond_eq_add]
  omega

theorem packThird_unpackSecond (b1 b2 : Byte) : packThird (unpackSecond b1 b2) = b2 := by
  apply BitVec.eq_of_toNat_eq
  rw [toNat_packThird_eq_mod, toNat_unpackSecond_eq_add]
  omega

section
variable {s0 s1 : Cell} (h0 : s0.toNat ≤ 4095) (h1 : s1.toNat ≤ 4095)

include h0 h1 in
theorem unpackFirst_pack : unpackFirst (packFirst s0) (packSecond s0 s1) = s0 := by
  apply BitVec.eq_of_toNat_eq
  rw [toNat_unpackFirst_eq_add, toNat_packFirst_eq_div h0, toNat_packSecond_eq_add h1]
  omega

include h1 in
theorem unpackSecond_pack : unpackSecond (packSecond s0 s1) (packThird s1) = s1 := by
  apply BitVec.eq_of_toNat_eq
  rw [toNat_unpackSecond_eq_add, toNat_packSecond_eq_add h1, toNat_packThird_eq_mod]
  omega

end

end Sys2Proof.Machine
end

section
/-! PROOFS. The lanes of a command (41_bitpacker.md R111, 20_memory.md R55): the order in which they store, and loops whose
lanes read memory as the earlier lanes left it. -/

namespace Sys2Proof.Machine

/-! ### Any order of the lanes (R102, R106, R111) -/

/-- Lanes of `stride` bytes each write apart, so what they leave depends on which lanes there are, not on their order. -/
theorem Memory.writeLanes_agree {m : Memory} {dst stride : Nat} {lane : Nat → List Byte} {ks js : List Nat}
    (hlen : ∀ k, (lane k).length = stride) (hmem : ∀ k, k ∈ ks ↔ k ∈ js) :
    Memory.agree (Memory.writeLanes m dst stride lane ks) (Memory.writeLanes m dst stride lane js) := by
  intro a
  by_cases hin : ∃ k ∈ ks, dst + stride * k ≤ a ∧ a < dst + stride * k + stride
  · obtain ⟨k, hk, hle, hlt⟩ := hin
    obtain ⟨j, rfl⟩ := Nat.exists_eq_add_of_le hle
    have hj : j < stride := by omega
    rw [Memory.read_writeLanes_lane _ _ _ _ _ (fun i _ => hlen i) k j hk hj,
      Memory.read_writeLanes_lane _ _ _ _ _ (fun i _ => hlen i) k j ((hmem k).mp hk) hj]
  · rw [Memory.read_writeLanes_outside _ _ _ _ ks a fun k hk h => hin ⟨k, hk, by rwa [hlen k] at h⟩,
      Memory.read_writeLanes_outside _ _ _ _ js a fun k hk h => hin ⟨k, (hmem k).mpr hk, by rwa [hlen k] at h⟩]

/-- Lane `k` of UNPACK12 reads the three bytes of its group only (R111). -/
theorem unpackLane_local {m n : Memory} {src k : Nat}
    (h : ∀ j, j < 3 → Memory.read m (src + 3 * k + j) = Memory.read n (src + 3 * k + j)) :
    unpackLane m src k = unpackLane n src k := by
  simp only [unpackLane, h 1 (by decide), h 2 (by decide), show Memory.read m (src + 3 * k) = _ from h 0 (by decide),
    Nat.add_zero]

/-- Lane `k` of PACK12 reads the two cells of its pair only (R111). -/
theorem packLane_local {m n : Memory} {src k : Nat}
    (h : ∀ j, j < 4 → Memory.read m (src + 4 * k + j) = Memory.read n (src + 4 * k + j)) :
    packLane m src k = packLane n src k := by
  have hfirst : Memory.readCell m (src + 4 * k) = Memory.readCell n (src + 4 * k) :=
    Memory.readCell_congr (h 0 (by decide)) (h 1 (by decide))
  have hsecond : Memory.readCell m (src + 4 * k + 2) = Memory.readCell n (src + 4 * k + 2) :=
    Memory.readCell_congr (h 2 (by decide)) (h 3 (by decide))
  rw [packLane, hfirst, hsecond, packLane]

/-- Settles O43: `unpackLane_local`, `packLane_local`, and `Memory.writeLanes_agree` for a permutation of the lanes. -/
theorem laneOrderIsFree : Obligations.LaneOrderIsFree :=
  ⟨fun m src k => ⟨unpackLane_length m src k, packLane_length m src k⟩, fun _ _ _ _ => unpackLane_local,
    fun _ _ _ _ => packLane_local, fun _ _ _ =>
      ⟨fun hperm => Memory.writeLanes_agree (unpackLane_length _ _) fun _ => hperm.symm.mem_iff,
        fun hperm => Memory.writeLanes_agree (packLane_length _ _) fun _ => hperm.symm.mem_iff⟩⟩

/-! ### Loops that read memory as they go (R102, R106, R125, R144) -/

/-- Lanes that read the source region only meet there what was there at the start, since the lanes before them wrote to the
destination: reading as they go is reading at the start. -/
theorem foldl_lanes_eq_writeLanes {m : Memory} {r q : Region} {stride n : Nat} {lane : Memory → Nat → List Byte}
    (hapart : r.overlaps q = false) (hsize : q.size = stride * n) (hlen : ∀ acc k, (lane acc k).length = stride)
    (hlane : ∀ acc : Memory, (∀ a, r.has a = true → Memory.read acc a = Memory.read m a) →
      ∀ k < n, lane acc k = lane m k) :
    (List.range n).foldl (fun acc k => Memory.writeBytes acc (q.start + stride * k) (lane acc k)) m =
      Memory.writeLanes m q.start stride (lane m) (List.range n) := by
  have hupto : ∀ j ≤ n,
      (List.range j).foldl (fun acc k => Memory.writeBytes acc (q.start + stride * k) (lane acc k)) m =
        Memory.writeLanes m q.start stride (lane m) (List.range j) := by
    intro j hj
    induction j with
    | zero => rfl
    | succ j ih =>
      have hsrc : ∀ a, r.has a = true →
          Memory.read (Memory.writeLanes m q.start stride (lane m) (List.range j)) a = Memory.read m a := by
        intro a ha
        have hout := (Region.has_eq_false q a).mp (Region.has_eq_false_of_apart hapart ha)
        have hle : stride * j ≤ q.size := hsize ▸ Nat.mul_le_mul_left stride (by omega)
        rw [Memory.read_writeLanes _ _ _ _ _ fun k _ => hlen m k, if_neg (by omega)]
      rw [List.range_succ, List.foldl_append, ih (by omega), List.foldl_cons, List.foldl_nil, hlane _ hsrc j hj,
        Memory.writeLanes, Memory.writeLanes, List.foldl_append, List.foldl_cons, List.foldl_nil]
  exact hupto n le_rfl

/-- UNPACK12's loop as R102 writes it, reading as it goes. -/
theorem unpackResult_eq_foldl (m : Memory) {l : Latched} (h : unpackCheck l = none) :
    (List.range (l.len.toNat / 3)).foldl
      (fun acc k => Memory.writeBytes acc (l.dst.toNat + 4 * k) (unpackLane acc l.src.toNat k)) m = unpackResult m l :=
  foldl_lanes_eq_writeLanes (instrCheck_apart (i := .unpack12) h) rfl (fun acc => unpackLane_length acc _)
    fun _ hacc _ hk => unpackLane_congr hacc hk

/-- PACK12's loop as R106 writes it, reading as it goes. -/
theorem packResult_eq_foldl (m : Memory) {l : Latched} (h : packCheck l = none) :
    (List.range (l.len.toNat / 2)).foldl
      (fun acc k => Memory.writeBytes acc (l.dst.toNat + 3 * k) (packLane acc l.src.toNat k)) m = packResult m l :=
  foldl_lanes_eq_writeLanes (instrCheck_apart (i := .pack12) h) rfl (fun acc => packLane_length acc _)
    fun _ hacc _ hk => packLane_congr hacc hk

/-- DEBAYER's loop as R125 writes it, reading as it goes. -/
theorem debayerResult_eq_foldl (m : Memory) {l : Latched} (c : CfaPattern) (h : debayerCheck l = none) :
    (List.range (l.w.toNat * l.h.toNat)).foldl
      (fun acc k =>
        Memory.writeBytes acc (l.dst.toNat + 6 * k) (debayerLane acc l.src.toNat c l.w.toNat l.h.toNat k)) m =
      debayerResult m l c :=
  foldl_lanes_eq_writeLanes (instrCheck_apart (i := .debayer c) h) (Nat.mul_assoc _ _ _)
    (fun acc => debayerLane_length acc _ c _ _) fun _ hacc _ hk => debayerLane_congr hacc c hk

/-- Settles O44: each loop leaves the very memory that the model's meaning leaves. -/
theorem loopsReadAsTheyGo : Obligations.LoopsReadAsTheyGo := by
  intro m l c
  refine ⟨fun h a => ?_, fun h a => ?_, fun h a => ?_⟩
  · rw [unpackResult_eq_foldl m h]
  · rw [packResult_eq_foldl m h]
  · rw [debayerResult_eq_foldl m c h]

end Sys2Proof.Machine
end

section
/-! PROOFS. The two plain ends of a completion step (60_exceptions.md R142 to R147, 40_control.md R90): the region check that
fails first, and the outcome of a command that no error meets. -/

namespace Sys2Proof.Machine

/-! ### The region checks in order (R143, R144, R147) -/

section
variable {r : Regions}

theorem regionError_of_misaligned
    (h : r.srcEven = true ∧ r.src.start % 2 = 1 ∨ r.dstEven = true ∧ r.dst.start % 2 = 1) :
    regionError r = some .align := by
  refine if_pos ?_
  rcases h with ⟨heven, hodd⟩ | ⟨heven, hodd⟩ <;> simp [heven, hodd]

variable (hsrc : r.srcEven = true → r.src.start % 2 = 0) (hdst : r.dstEven = true → r.dst.start % 2 = 0)
include hsrc hdst

theorem regionError_of_aligned :
    regionError r =
      if r.src.start + r.src.size > addressSpace || r.dst.start + r.dst.size > addressSpace then some .range
      else if r.src.overlaps r.dst then some .overlap
      else none := by
  refine if_neg ?_
  simpa using ⟨hsrc, hdst⟩

theorem regionError_of_past_top
    (h : r.src.start + r.src.size > addressSpace ∨ r.dst.start + r.dst.size > addressSpace) :
    regionError r = some .range := by
  rw [regionError_of_aligned hsrc hdst, if_pos (by simpa using h)]

theorem regionError_of_overlap (hs : r.src.start + r.src.size ≤ addressSpace)
    (hd : r.dst.start + r.dst.size ≤ addressSpace) (h : r.src.overlaps r.dst = true) :
    regionError r = some .overlap := by
  rw [regionError_of_aligned hsrc hdst, if_neg (by simpa using ⟨hs, hd⟩), if_pos h]

end

/-! ### The outcome (R90, R148) -/

/-- A check that fails ends the command with its code and touches nothing else (R142, R148). -/
theorem exec_fails {i : Instr} {s : State} {e : ErrCode} (h : instrCheck s.blk.latched i = some e) :
    ∃ t, exec i s = .next t ∧ s.failsUntouched t e.bits :=
  ⟨_, exec_of_check h, raiseError_failsUntouched s e⟩

/-- What the completion step of a command that succeeds leaves: its count and outcome, its result in memory, and everything
else as it was (R90). -/
theorem exec_completes {i : Instr} {s : State} (hi : i ≠ .nop) (hcheck : instrCheck s.blk.latched i = none)
    (hdev : s.onDevice (instrRegions s.blk.latched i) = false)
    (hadm : s.admitsRegions (instrRegions s.blk.latched i) = true) (hbad : commandSampleBad s i = false) :
    ∃ t, exec i s = .next t ∧ t.blk.showsOk (commandCount s.blk.latched i) ∧ s.blk.sameButOutcome t.blk ∧
      s.sameAround t ∧ t.draws = s.draws ∧ t.mem = commandResult s i :=
  ⟨_, exec_succeeds hi hcheck hdev hadm hbad, Block.completeOk_shows _ (commandCount_lt hcheck),
    Block.completeOk_same _ _, ⟨rfl, rfl, rfl, rfl⟩, rfl, rfl⟩

end Sys2Proof.Machine
end

section
/-! PROOFS. The codec's commands (41_bitpacker.md R100 to R114, 60_exceptions.md R142 to R148): their checks in order, what
they store, the execution error of PACK12, and the round trips. -/

namespace Sys2Proof.Machine

/-! ### The checks of UNPACK12 and PACK12 in order (R102, R106, R107, R147) -/

theorem unpackCheck_of_malformed {l : Latched} (h : l.len.toNat % 3 ≠ 0) : unpackCheck l = some .malformedLength :=
  if_pos (by simpa using h)

theorem unpackCheck_of_groups {l : Latched} (h : l.len.toNat % 3 = 0) : unpackCheck l = regionError (unpackRegions l) :=
  if_neg (by simpa using h)

theorem packCheck_of_malformed {l : Latched} (h : l.len.toNat % 2 = 1) : packCheck l = some .malformedLength :=
  if_pos (by simp [h])

theorem packCheck_of_pairs {l : Latched} (h : l.len.toNat % 2 = 0) : packCheck l = regionError (packRegions l) :=
  if_neg (by simpa using h)

/-- Settles O31: each clause is the check that fails first. -/
theorem unpack12Errors : Obligations.Unpack12Errors := by
  rintro s l rfl
  refine ⟨fun hlen => ?_, fun hlen hodd => ?_, fun hlen heven htop => ?_, fun hlen heven hsrc hdst hpos hlt hgt => ?_⟩
  · exact exec_fails (i := .unpack12) (unpackCheck_of_malformed hlen)
  · have halign := regionError_of_misaligned (r := unpackRegions s.blk.latched) (.inr ⟨rfl, hodd⟩)
    exact exec_fails (i := .unpack12) ((unpackCheck_of_groups hlen).trans halign)
  · have hrange := regionError_of_past_top (r := unpackRegions s.blk.latched) nofun (fun _ => heven) htop
    exact exec_fails (i := .unpack12) ((unpackCheck_of_groups hlen).trans hrange)
  · have hsize : 0 < (unpackRegions s.blk.latched).dst.size := by simp only [unpackRegions]; omega
    have hoverlap := regionError_of_overlap (r := unpackRegions s.blk.latched) nofun (fun _ => heven) hsrc hdst
      ((Region.overlaps_iff _ _).mpr ⟨hpos, hsize, hlt, hgt⟩)
    exact exec_fails (i := .unpack12) ((unpackCheck_of_groups hlen).trans hoverlap)

/-- Settles O33: each clause is the check that fails first. -/
theorem pack12Errors : Obligations.Pack12Errors := by
  rintro s l rfl
  refine ⟨fun hlen => ?_, fun hlen hodd => ?_, fun hlen heven htop => ?_, fun hlen heven hsrc hdst hpos hlt hgt => ?_⟩
  · exact exec_fails (i := .pack12) (packCheck_of_malformed hlen)
  · have halign := regionError_of_misaligned (r := packRegions s.blk.latched) (.inl ⟨rfl, hodd⟩)
    exact exec_fails (i := .pack12) ((packCheck_of_pairs hlen).trans halign)
  · have hrange := regionError_of_past_top (r := packRegions s.blk.latched) (fun _ => heven) nofun htop
    exact exec_fails (i := .pack12) ((packCheck_of_pairs hlen).trans hrange)
  · have hsrcSize : 0 < (packRegions s.blk.latched).src.size := by simp only [packRegions]; omega
    have hdstSize : 0 < (packRegions s.blk.latched).dst.size := by simp only [packRegions]; omega
    have hoverlap := regionError_of_overlap (r := packRegions s.blk.latched) (fun _ => heven) nofun hsrc hdst
      ((Region.overlaps_iff _ _).mpr ⟨hsrcSize, hdstSize, hlt, hgt⟩)
    exact exec_fails (i := .pack12) ((packCheck_of_pairs hlen).trans hoverlap)

/-! ### Success (R90, R100, R101) -/

/-- SAMPLE_RANGE applies exactly where PACK12 can read a source cell and it is above 4095 (R146). -/
theorem sampleTooLarge_iff (s : State) (l : Latched) :
    s.sampleTooLarge l = true ↔
      ∃ i < l.len.toNat,
        (s.admits .read (l.src.toNat + 2 * i) = true ∧ s.admits .read (l.src.toNat + 2 * i + 1) = true) ∧
          4095 < (Memory.readCell s.mem (l.src.toNat + 2 * i)).toNat := by
  simp only [State.sampleTooLarge, List.any_eq_true, List.mem_range, Bool.and_eq_true, decide_eq_true_eq, gt_iff_lt,
    maxSample]

theorem sampleTooLarge_eq_false {s : State} {l : Latched}
    (h : ∀ i < l.len.toNat, (Memory.readCell s.mem (l.src.toNat + 2 * i)).toNat ≤ 4095) :
    s.sampleTooLarge l = false := by
  rw [← Bool.not_eq_true, sampleTooLarge_iff]
  rintro ⟨i, hi, _, hlarge⟩
  exact absurd (h i hi) (by omega)

/-- Both bytes of a source cell of PACK12 are in its source region (R55). -/
theorem packRegions_admits_cell {s : State} {l : Latched} (hadm : s.admitsRegions (packRegions l) = true) {i : Nat}
    (hi : i < l.len.toNat) :
    s.admits .read (l.src.toNat + 2 * i) = true ∧ s.admits .read (l.src.toNat + 2 * i + 1) = true := by
  obtain ⟨hsrc, _⟩ := (State.admitsRegions_iff _ _).mp hadm
  constructor <;> (apply hsrc; simp only [Region.has_iff, packRegions]; omega)

/-- With every byte admitted, SAMPLE_RANGE applies where some source cell is above 4095 (R146). -/
theorem sampleTooLarge_of_cell {s : State} {l : Latched} (hadm : s.admitsRegions (packRegions l) = true) {i : Nat}
    (hi : i < l.len.toNat) (hlarge : 4095 < (Memory.readCell s.mem (l.src.toNat + 2 * i)).toNat) :
    s.sampleTooLarge l = true :=
  (sampleTooLarge_iff s l).mpr ⟨i, hi, packRegions_admits_cell hadm hi, hlarge⟩

/-- Where every source cell fits in 12 bits, so do the two of each pair (R101). -/
theorem pair_le {m : Memory} {src len k : Nat} (h : ∀ i < len, (Memory.readCell m (src + 2 * i)).toNat ≤ 4095)
    (hk : k < len / 2) :
    (Memory.readCell m (src + 4 * k)).toNat ≤ 4095 ∧ (Memory.readCell m (src + 4 * k + 2)).toNat ≤ 4095 := by
  have h0 := h (2 * k) (by omega)
  have h1 := h (2 * k + 1) (by omega)
  rw [show 2 * (2 * k) = 4 * k by omega] at h0
  rw [show 2 * (2 * k + 1) = 4 * k + 2 by omega] at h1
  exact ⟨h0, h1⟩

/-- Settles O30: `exec_completes`, with the cells of `unpackResult_cells` as naturals. -/
theorem unpack12Completes : Obligations.Unpack12Completes := by
  rintro s l rfl hlen heven hsrc hdst hapart hdev hadm
  have hcheck : unpackCheck s.blk.latched = none :=
    (unpackCheck_none_iff _).mpr ⟨hlen, (regionError_none_iff _).mpr ⟨nofun, fun _ => heven, hsrc, hdst, hapart⟩⟩
  obtain ⟨t, hexec, hok, hsame, haround, hdraws, hmem⟩ := exec_completes (i := .unpack12) nofun hcheck hdev hadm rfl
  refine ⟨t, hexec, hok, hsame, haround, hdraws, ?_, fun a ha => ?_⟩
  · rintro k _ _ _ hk rfl rfl rfl
    obtain ⟨hfirst, hsecond⟩ := unpackResult_cells s.mem s.blk.latched k hk
    rw [hmem, commandResult, hfirst, hsecond]
    exact ⟨toNat_unpackFirst _ _, toNat_unpackSecond _ _⟩
  · rw [hmem]
    exact commandResult_agreeOutside s .unpack12 a ((Region.has_eq_false _ _).mpr ha)

/-- Settles O32: `exec_completes`, with the bytes of `packResult_bytes` as naturals. -/
theorem pack12Completes : Obligations.Pack12Completes := by
  rintro s l rfl hlen heven hsrc hdst hapart hdev hadm hcells
  have hcheck : packCheck s.blk.latched = none :=
    (packCheck_none_iff _).mpr ⟨hlen, (regionError_none_iff _).mpr ⟨fun _ => heven, nofun, hsrc, hdst, hapart⟩⟩
  obtain ⟨t, hexec, hok, hsame, haround, hdraws, hmem⟩ :=
    exec_completes (i := .pack12) nofun hcheck hdev hadm (sampleTooLarge_eq_false hcells)
  refine ⟨t, hexec, hok, hsame, haround, hdraws, ?_, fun a ha => ?_⟩
  · rintro k _ _ hk rfl rfl
    obtain ⟨hfirst, hsecond, hthird⟩ := packResult_bytes s.mem s.blk.latched k hk
    obtain ⟨h0, h1⟩ := pair_le hcells hk
    rw [hmem, commandResult, hfirst, hsecond, hthird]
    exact ⟨toNat_packFirst h0, toNat_packSecond h1, toNat_packThird _⟩
  · rw [hmem]
    exact commandResult_agreeOutside s .pack12 a ((Region.has_eq_false _ _).mpr ha)

/-- Settles O34: with every byte admitted SAMPLE_RANGE alone applies, and the whole destination takes free values. -/
theorem pack12SampleRange : Obligations.Pack12SampleRange := by
  rintro s l i rfl hcheck hdev hadm hi hlarge
  have herr : s.accessError (packRegions s.blk.latched) (s.sampleTooLarge s.blk.latched) = some .sampleRange := by
    simp only [State.accessError, sampleTooLarge_of_cell hadm hi hlarge, hadm]
  refine ⟨_, exec_of_accessError (i := .pack12) hcheck hdev herr, Block.completeError_shows _ .sampleRange,
    Block.completeError_same _ _, ⟨rfl, rfl, rfl, rfl⟩, fun a => ?_⟩
  obtain ⟨_, hdst⟩ := (State.admitsRegions_iff _ _).mp hadm
  have hfree : ((packRegions s.blk.latched).dst.has a && s.admits .write a) = (packRegions s.blk.latched).dst.has a :=
    Bool.and_eq_left_iff_imp.mpr (hdst a)
  rw [State.raiseError_mem, State.scramble_mem, Memory.read_scramble]
  exact if_congr (by rw [← hfree]; rfl) rfl rfl

/-! ### Length 0 (R104, R106, R143) -/

/-- A command with empty regions reaches no byte, so it meets no device and no byte that is not admitted. -/
theorem Regions.reaches_nothing {r : Regions} (hsrc : r.src.size = 0) (hdst : r.dst.size = 0) (s : State) :
    s.onDevice r = false ∧ s.admitsRegions r = true := by
  simp [State.onDevice, State.admitsRegions, Region.any, Region.all, hsrc, hdst]

/-- Empty regions at aligned addresses pass every region check, wherever they lie (R104, R143). -/
theorem regionError_of_empty {r : Regions} (hsrc : r.src.size = 0) (hdst : r.dst.size = 0)
    (hs : r.srcEven = true → r.src.start % 2 = 0) (hd : r.dstEven = true → r.dst.start % 2 = 0)
    (hstart : r.src.start < addressSpace ∧ r.dst.start < addressSpace) : regionError r = none := by
  refine (regionError_none_iff r).mpr ⟨hs, hd, by omega, by omega, ?_⟩
  simp [Region.overlaps, hsrc]

/-- Settles O39: the regions are empty, and so is the list of lanes. -/
theorem zeroLengthCompletes : Obligations.ZeroLengthCompletes := by
  rintro s l rfl hlen
  have hzero : s.blk.latched.len.toNat = 0 := by rw [hlen]; rfl
  have hstart : s.blk.latched.src.toNat < addressSpace ∧ s.blk.latched.dst.toNat < addressSpace :=
    ⟨s.blk.latched.src.isLt, s.blk.latched.dst.isLt⟩
  refine ⟨fun heven => ?_, fun heven => ?_⟩
  · have hdst : (unpackRegions s.blk.latched).dst.size = 0 := by simp [unpackRegions, hzero]
    obtain ⟨hdev, hadm⟩ := Regions.reaches_nothing (r := unpackRegions s.blk.latched) hzero hdst s
    have hcheck : unpackCheck s.blk.latched = none :=
      (unpackCheck_none_iff _).mpr ⟨by rw [hzero], regionError_of_empty hzero hdst nofun (fun _ => heven) hstart⟩
    obtain ⟨t, hexec, hok, _, _, _, hmem⟩ := exec_completes (i := .unpack12) nofun hcheck hdev hadm rfl
    simp only [commandCount, commandResult, unpackResult, hzero] at hok hmem
    exact ⟨t, hexec, hok, hmem⟩
  · have hsrc : (packRegions s.blk.latched).src.size = 0 := by simp [packRegions, hzero]
    have hdst : (packRegions s.blk.latched).dst.size = 0 := by simp [packRegions, hzero]
    obtain ⟨hdev, hadm⟩ := Regions.reaches_nothing hsrc hdst s
    have hcheck : packCheck s.blk.latched = none :=
      (packCheck_none_iff _).mpr ⟨by rw [hzero], regionError_of_empty hsrc hdst (fun _ => heven) nofun hstart⟩
    have hbad : s.sampleTooLarge s.blk.latched = false := sampleTooLarge_eq_false fun i hi => by omega
    obtain ⟨t, hexec, hok, _, _, _, hmem⟩ := exec_completes (i := .pack12) nofun hcheck hdev hadm hbad
    simp only [commandCount, commandResult, packResult, hzero] at hok hmem
    exact ⟨t, hexec, hok, hmem⟩

/-! ### CFA, WIDTH and HEIGHT (R114) -/

/-- The state with other latched copies of the parameters that only DEBAYER reads. -/
def State.withGrid (s : State) (c : BitVec 2) (w h : Word) : State :=
  s.setBlk { s.blk with latched := { s.blk.latched with cfa := c, w := w, h := h } }

/-- The memory phase is the same with those copies changed before it or after it. -/
theorem accessMemory_withGrid (s : State) (c : BitVec 2) (w h : Word) (r : Regions) (bad : Bool) (m : Memory) (n : Nat) :
    (s.withGrid c w h).accessMemory r bad m n = mapNext (fun t => t.withGrid c w h) (s.accessMemory r bad m n) := by
  have hdev : (s.withGrid c w h).onDevice r = s.onDevice r := onDevice_setBlk rfl r
  have herr : (s.withGrid c w h).accessError r bad = s.accessError r bad := accessError_setBlk rfl r bad
  simp only [State.accessMemory, hdev, herr]
  split
  · rfl
  · split <;> rfl

/-- Everything the codec takes from its latched copies comes from SRC, DST and LEN (R102, R106). -/
theorem codec_withGrid (s : State) {i : Instr} (c : BitVec 2) (w h : Word) (hi : i = .unpack12 ∨ i = .pack12) :
    instrCheck (s.withGrid c w h).blk.latched i = instrCheck s.blk.latched i ∧
      instrRegions (s.withGrid c w h).blk.latched i = instrRegions s.blk.latched i ∧
        commandSampleBad (s.withGrid c w h) i = commandSampleBad s i ∧
          commandResult (s.withGrid c w h) i = commandResult s i ∧
            commandCount (s.withGrid c w h).blk.latched i = commandCount s.blk.latched i := by
  rcases hi with rfl | rfl <;> exact ⟨rfl, rfl, rfl, rfl, rfl⟩

/-- Settles O40: an error of the checks, or the memory phase, is the same on either side. -/
theorem codecIgnoresGridParameters : Obligations.CodecIgnoresGridParameters := by
  intro s i c w h hi
  change exec i (s.withGrid c w h) = mapNext (fun t => t.withGrid c w h) (exec i s)
  obtain ⟨hchecks, hregions, hbad, hresult, hcount⟩ := codec_withGrid s c w h hi
  cases hcheck : instrCheck s.blk.latched i with
  | some e =>
    rw [exec_of_check hcheck, exec_of_check (hchecks.trans hcheck)]
    rfl
  | none =>
    rw [exec_of_check_none hcheck, exec_of_check_none (hchecks.trans hcheck), hregions, hbad, hresult, hcount]
    exact accessMemory_withGrid ..

/-! ### Round trips (R109) -/

/-- Every cell UNPACK12 writes is a 12-bit sample (R110). -/
theorem unpackResult_cell_le (m : Memory) (l : Latched) {i : Nat} (hi : i < 2 * (l.len.toNat / 3)) :
    (Memory.readCell (unpackResult m l) (l.dst.toNat + 2 * i)).toNat ≤ 4095 := by
  obtain ⟨k, hplace⟩ : ∃ k, i = 2 * k ∨ i = 2 * k + 1 := ⟨i / 2, by omega⟩
  obtain ⟨hfirst, hsecond⟩ := unpackResult_cells m l k (by omega)
  rcases hplace with rfl | rfl
  · rw [show 2 * (2 * k) = 4 * k by omega, hfirst]
    exact unpackFirst_le _ _
  · rw [show l.dst.toNat + 2 * (2 * k + 1) = l.dst.toNat + 4 * k + 2 by omega, hsecond]
    exact unpackSecond_le _ _

section
variable {m : Memory} {l q : Latched} (hsrc : q.src = l.dst)

include hsrc

/-- Packing the cells that UNPACK12 wrote gives back the bytes of every group (R109 (a)). -/
theorem packResult_unpackResult (hlen : q.len.toNat = 2 * (l.len.toNat / 3)) {j : Nat} (hj : j < 3 * (l.len.toNat / 3)) :
    Memory.read (packResult (unpackResult m l) q) (q.dst.toNat + j) = Memory.read m (l.src.toNat + j) := by
  obtain ⟨k, hplace⟩ : ∃ k, j = 3 * k ∨ j = 3 * k + 1 ∨ j = 3 * k + 2 := ⟨j / 3, by omega⟩
  obtain ⟨hcell0, hcell1⟩ := unpackResult_cells m l k (by omega)
  obtain ⟨hfirst, hsecond, hthird⟩ := packResult_bytes (unpackResult m l) q k (by omega)
  rw [hsrc] at hfirst hsecond hthird
  rw [hcell0] at hfirst hsecond
  rw [hcell1] at hsecond hthird
  rcases hplace with rfl | rfl | rfl
  · exact hfirst.trans (packFirst_unpackFirst _ _)
  · exact hsecond.trans (packSecond_unpack _ _ _)
  · exact hthird.trans (packThird_unpackSecond _ _)

/-- Unpacking the bytes that PACK12 wrote gives back the cells of every pair (R109 (b)). -/
theorem unpackResult_packResult (hlen : q.len.toNat = 3 * (l.len.toNat / 2))
    (hcells : ∀ i < l.len.toNat, (Memory.readCell m (l.src.toNat + 2 * i)).toNat ≤ 4095) {j : Nat}
    (hj : j < 2 * (l.len.toNat / 2)) :
    Memory.readCell (unpackResult (packResult m l) q) (q.dst.toNat + 2 * j) =
      Memory.readCell m (l.src.toNat + 2 * j) := by
  obtain ⟨k, hplace⟩ : ∃ k, j = 2 * k ∨ j = 2 * k + 1 := ⟨j / 2, by omega⟩
  obtain ⟨h0, h1⟩ := pair_le hcells (show k < l.len.toNat / 2 by omega)
  obtain ⟨hbyte0, hbyte1, hbyte2⟩ := packResult_bytes m l k (by omega)
  obtain ⟨hfirst, hsecond⟩ := unpackResult_cells (packResult m l) q k (by omega)
  rw [hsrc] at hfirst hsecond
  rw [hbyte0, hbyte1, unpackFirst_pack h0 h1] at hfirst
  rw [hbyte1, hbyte2, unpackSecond_pack h1] at hsecond
  rcases hplace with rfl | rfl
  · rw [show 2 * (2 * k) = 4 * k by omega]
    exact hfirst
  · rw [show 2 * (2 * k + 1) = 4 * k + 2 by omega]
    exact hsecond

end

/-- The source cells of a PACK12 that succeeded fit in 12 bits (R146). -/
theorem exec_pack12_done_cells {s t : State} (h : exec .pack12 s = .next t) (hdone : t.blk.done = true) :
    ∀ i < s.blk.latched.len.toNat, (Memory.readCell s.mem (s.blk.latched.src.toNat + 2 * i)).toNat ≤ 4095 := by
  obtain ⟨_, _, hbad, hadm⟩ := exec_done h hdone
  intro i hi
  by_contra hlarge
  have htrue : s.sampleTooLarge s.blk.latched = true := sampleTooLarge_of_cell hadm hi (by omega)
  exact absurd (hbad.symm.trans htrue) Bool.false_ne_true

/-- Settles O42: the second command succeeds, and each byte or cell it writes is the first command's source. -/
theorem codecRoundTrip : Obligations.CodecRoundTrip := by
  constructor
  · intro s t u h hdone humem hsrc hlen hcheck hdev hadm
    obtain ⟨hfirst, rfl, _, _⟩ := exec_done h hdone
    have hmem : u.mem = unpackResult s.mem s.blk.latched := humem
    obtain ⟨hgroups, _⟩ := (unpackCheck_none_iff _).mp hfirst
    have hbad : u.sampleTooLarge u.blk.latched = false := by
      refine sampleTooLarge_eq_false fun i hi => ?_
      rw [hmem, hsrc]
      exact unpackResult_cell_le s.mem s.blk.latched (by omega)
    obtain ⟨v, hexec, hok, _, _, _, hvmem⟩ := exec_completes (i := .pack12) nofun hcheck hdev hadm hbad
    rw [show commandCount u.blk.latched .pack12 = s.blk.latched.len.toNat by simp only [commandCount]; omega] at hok
    refine ⟨v, hexec, hok, fun j hj => ?_⟩
    rw [hvmem, commandResult, hmem]
    exact packResult_unpackResult hsrc hlen (by omega)
  · intro s t u h hdone humem hsrc hlen hcheck hdev hadm
    obtain ⟨hfirst, rfl, _, _⟩ := exec_done h hdone
    have hmem : u.mem = packResult s.mem s.blk.latched := humem
    obtain ⟨hpairs, _⟩ := (packCheck_none_iff _).mp hfirst
    obtain ⟨v, hexec, hok, _, _, _, hvmem⟩ := exec_completes (i := .unpack12) nofun hcheck hdev hadm rfl
    rw [show commandCount u.blk.latched .unpack12 = s.blk.latched.len.toNat by simp only [commandCount]; omega] at hok
    refine ⟨v, hexec, hok, fun j hj => ?_⟩
    rw [hvmem, commandResult, hmem]
    exact unpackResult_packResult hsrc hlen (exec_pack12_done_cells h hdone) (by omega)

end Sys2Proof.Machine
end

section
/-! PROOFS. The neighbourhood of a site (42_debayer.md R121 to R127): the colours of the four kinds of place around it, and
the neighbours of each colour as the places beside it in its row, in its column, and at its corners. -/

namespace Sys2Proof.Machine

/-! ### The colour of a site by its parities (R121) -/

theorem colour_tile (c : CfaPattern) (i j : Nat) :
    colour c (2 * i) (2 * j) = (tile c).1 ∧ colour c (2 * i + 1) (2 * j) = (tile c).2.1 ∧
      colour c (2 * i) (2 * j + 1) = (tile c).2.2.1 ∧ colour c (2 * i + 1) (2 * j + 1) = (tile c).2.2.2 := by
  simp [colour, Nat.add_mod]

/-- Settles O47: the four places of each pattern's tile. -/
theorem colourOfSite : Obligations.ColourOfSite := fun i j =>
  ⟨colour_tile .rggb i j, colour_tile .bggr i j, colour_tile .grbg i j, colour_tile .gbrg i j⟩

theorem colour_of_parity (c : CfaPattern) {x y x' y' : Nat} (hx : x % 2 = x' % 2) (hy : y % 2 = y' % 2) :
    colour c x y = colour c x' y' := by
  simp only [colour, hx, hy]

/-- What holds of the colours at, beside, below and diagonally below each place of the tile holds of them at every site. -/
theorem colour_of_tile {P : Colour → Colour → Colour → Colour → Prop} {c : CfaPattern}
    (htile : ∀ i < 2, ∀ j < 2, P (colour c i j) (colour c (i + 1) j) (colour c i (j + 1)) (colour c (i + 1) (j + 1)))
    (x y : Nat) : P (colour c x y) (colour c (x + 1) y) (colour c x (y + 1)) (colour c (x + 1) (y + 1)) := by
  have hsite := htile (x % 2) (by omega) (y % 2) (by omega)
  have hx : x % 2 % 2 = x % 2 := by omega
  have hy : y % 2 % 2 = y % 2 := by omega
  have hx' : (x % 2 + 1) % 2 = (x + 1) % 2 := by omega
  have hy' : (y % 2 + 1) % 2 = (y + 1) % 2 := by omega
  rwa [colour_of_parity c hx hy, colour_of_parity c hx' hy, colour_of_parity c hx hy',
    colour_of_parity c hx' hy'] at hsite

/-- A green site stands between one colour in its row, another in its column, and green at its corners. -/
theorem colour_around_green {c : CfaPattern} {x y : Nat} (h : colour c x y = .g) :
    colour c (x + 1) y ≠ .g ∧ colour c x (y + 1) ≠ .g ∧ colour c (x + 1) y ≠ colour c x (y + 1) ∧
      colour c (x + 1) (y + 1) = .g :=
  colour_of_tile (P := fun site row column corner =>
    site = .g → row ≠ .g ∧ column ≠ .g ∧ row ≠ column ∧ corner = .g) (by cases c <;> decide) x y h

/-- A red or blue site stands between green in its row and its column, and the other of the two at its corners. -/
theorem colour_around_not_green {c : CfaPattern} {x y : Nat} (h : colour c x y ≠ .g) :
    colour c (x + 1) y = .g ∧ colour c x (y + 1) = .g ∧ colour c (x + 1) (y + 1) ≠ .g ∧
      colour c (x + 1) (y + 1) ≠ colour c x y :=
  colour_of_tile (P := fun site row column corner =>
    site ≠ .g → row = .g ∧ column = .g ∧ corner ≠ .g ∧ corner ≠ site) (by cases c <;> decide) x y h

/-- The colours a site does not carry are those of its row and its column, or green and that of its corners. -/
theorem missing_colour {cfa : CfaPattern} {c : Colour} {x y : Nat} (h : colour cfa x y ≠ c) :
    colour cfa x y = .g ∧ (c = colour cfa (x + 1) y ∨ c = colour cfa x (y + 1)) ∨
      colour cfa x y ≠ .g ∧ (c = .g ∨ c = colour cfa (x + 1) (y + 1)) :=
  colour_of_tile (P := fun site row column corner =>
    site ≠ c → site = .g ∧ (c = row ∨ c = column) ∨ site ≠ .g ∧ (c = .g ∨ c = corner))
    (by cases cfa <;> cases c <;> decide) x y h

/-! ### The places next to a coordinate -/

/-- The coordinates next to `x` among the first `n`. -/
def beside (n x : Nat) : List Nat := (if 0 < x then [x - 1] else []) ++ if x + 1 < n then [x + 1] else []

theorem mem_beside {n x a : Nat} (hx : x < n) : a ∈ beside n x ↔ a < n ∧ (a + 1 = x ∨ a = x + 1) := by
  unfold beside
  split <;> split <;> simp <;> omega

theorem nodup_beside (n x : Nat) : (beside n x).Nodup := by
  unfold beside
  split <;> split <;> simp

theorem beside_of_interior {n x : Nat} (h : x + 2 < n) : beside n (x + 1) = [x, x + 2] := by
  simp [beside, h]

/-- One coordinate is next to an end of the range, two to a coordinate inside it. -/
theorem length_beside {n x : Nat} (hn : 2 ≤ n) (hx : x < n) :
    (x = 0 ∨ x + 1 = n) ∧ (beside n x).length = 1 ∨ (1 ≤ x ∧ x + 1 < n) ∧ (beside n x).length = 2 := by
  unfold beside
  split <;> split <;> simp <;> omega

/-! ### The neighbours as the places beside the site (R124) -/

theorem nodup_around (x y : Nat) : (around x y).Nodup := by
  simp [around]

/-- No site is a neighbour twice. -/
theorem nodup_neighbours (cfa : CfaPattern) (w h : Nat) (c : Colour) (x y : Nat) : (neighbours cfa w h c x y).Nodup := by
  refine List.Nodup.filter _ (List.Nodup.map_on ?_ ((nodup_around x y).filter _))
  rintro ⟨a, b⟩ hab ⟨a', b'⟩ hab' heq
  simp only [List.mem_filter, decide_eq_true_eq, Prod.mk.injEq] at hab hab' heq ⊢
  omega

/-- Settles O48: `mem_neighbours`, with its inequalities as distances. -/
theorem neighbourSet : Obligations.NeighbourSet := by
  refine fun cfa W H c x y => ⟨nodup_neighbours cfa W H c x y, fun x' y' => ?_⟩
  have hx : |(x' : ℤ) - x| ≤ 1 ↔ x' ≤ x + 1 ∧ x ≤ x' + 1 := by rw [abs_le]; omega
  have hy : |(y' : ℤ) - y| ≤ 1 ↔ y' ≤ y + 1 ∧ y ≤ y' + 1 := by rw [abs_le]; omega
  rw [mem_neighbours, hx, hy, and_assoc, and_assoc]

/-- The sites of colour `c` next to a site: in its row, in its column, and at its corners, each kind of one colour. -/
def sitesBeside (cfa : CfaPattern) (w h : Nat) (c : Colour) (x y : Nat) : List (Nat × Nat) :=
  (if colour cfa (x + 1) y = c then beside w x ×ˢ [y] else []) ++
    ((if colour cfa x (y + 1) = c then [x] ×ˢ beside h y else []) ++
      if colour cfa (x + 1) (y + 1) = c then beside w x ×ˢ beside h y else [])

theorem mem_sitesBeside {cfa : CfaPattern} {w h : Nat} {c : Colour} {x y x' y' : Nat} :
    (x', y') ∈ sitesBeside cfa w h c x y ↔
      colour cfa (x + 1) y = c ∧ x' ∈ beside w x ∧ y' = y ∨ colour cfa x (y + 1) = c ∧ x' = x ∧ y' ∈ beside h y ∨
        colour cfa (x + 1) (y + 1) = c ∧ x' ∈ beside w x ∧ y' ∈ beside h y := by
  simp only [sitesBeside, List.mem_append, List.mem_ite_nil_right, List.mem_product,
    List.mem_singleton]

theorem nodup_sitesBeside {w h x y : Nat} (hx : x < w) (hy : y < h) (cfa : CfaPattern) (c : Colour) :
    (sitesBeside cfa w h c x y).Nodup := by
  have hrow : (beside w x ×ˢ [y]).Nodup := (nodup_beside w x).product (List.nodup_singleton y)
  have hcolumn : ([x] ×ˢ beside h y).Nodup := (List.nodup_singleton x).product (nodup_beside h y)
  have hcorner : (beside w x ×ˢ beside h y).Nodup := (nodup_beside w x).product (nodup_beside h y)
  refine .append ?_ (.append ?_ ?_ ?_) ?_
  · split
    exacts [hrow, List.nodup_nil]
  · split
    exacts [hcolumn, List.nodup_nil]
  · split
    exacts [hcorner, List.nodup_nil]
  all_goals
    rintro ⟨a, b⟩ hone htwo
    simp only [List.mem_append, List.mem_ite_nil_right, List.mem_product, List.mem_singleton, mem_beside hx,
      mem_beside hy] at hone htwo
    omega

theorem mem_neighbours_iff_beside {w h x y x' y' : Nat} (hx : x < w) (hy : y < h) {cfa : CfaPattern} {c : Colour} :
    (x', y') ∈ neighbours cfa w h c x y ↔ (x', y') ∈ sitesBeside cfa w h c x y := by
  rw [mem_neighbours, mem_sitesBeside, mem_beside hx, mem_beside hy]
  constructor
  · rintro ⟨_, _, _, _, hne, hw, hh, rfl⟩
    rw [ne_eq, Prod.mk.injEq] at hne
    by_cases hrow : y' = y
    · subst hrow
      exact .inl ⟨colour_of_parity cfa (by omega) rfl, ⟨hw, by omega⟩, rfl⟩
    by_cases hcolumn : x' = x
    · subst hcolumn
      exact .inr (.inl ⟨colour_of_parity cfa rfl (by omega), rfl, hh, by omega⟩)
    · exact .inr (.inr ⟨colour_of_parity cfa (by omega) (by omega), ⟨hw, by omega⟩, hh, by omega⟩)
  · rw [ne_eq, Prod.mk.injEq]
    rintro (⟨rfl, hside, rfl⟩ | ⟨rfl, rfl, hside⟩ | ⟨rfl, hside, hside'⟩) <;>
      exact ⟨by omega, by omega, by omega, by omega, by omega, by omega, by omega,
        colour_of_parity cfa (by omega) (by omega)⟩

/-- The neighbours of a site of the grid are the places of that colour next to it, up to their order. -/
theorem neighbours_perm {w h x y : Nat} (hx : x < w) (hy : y < h) (cfa : CfaPattern) (c : Colour) :
    (neighbours cfa w h c x y).Perm (sitesBeside cfa w h c x y) :=
  (List.perm_ext_iff_of_nodup (nodup_neighbours ..) (nodup_sitesBeside hx hy cfa c)).mpr fun _ =>
    mem_neighbours_iff_beside hx hy

/-! ### The neighbours of each colour that the site does not carry (R121, R124) -/

section
variable {cfa : CfaPattern} {w h x y : Nat} (hx : x < w) (hy : y < h)
include hx hy

/-- At a green site, the neighbours of the colour of its row are those in the row. -/
theorem neighbours_row_perm (hsite : colour cfa x y = .g) :
    (neighbours cfa w h (colour cfa (x + 1) y) x y).Perm (beside w x ×ˢ [y]) := by
  obtain ⟨hrow, _, hne, hcorner⟩ := colour_around_green hsite
  simpa [sitesBeside, hne.symm, hcorner, hrow.symm] using neighbours_perm hx hy cfa (colour cfa (x + 1) y)

/-- At a green site, the neighbours of the colour of its column are those in the column. -/
theorem neighbours_column_perm (hsite : colour cfa x y = .g) :
    (neighbours cfa w h (colour cfa x (y + 1)) x y).Perm ([x] ×ˢ beside h y) := by
  obtain ⟨_, hcolumn, hne, hcorner⟩ := colour_around_green hsite
  simpa [sitesBeside, hne, hcorner, hcolumn.symm] using neighbours_perm hx hy cfa (colour cfa x (y + 1))

/-- At a red or blue site, the green neighbours are those in its row and its column. -/
theorem neighbours_green_perm (hsite : colour cfa x y ≠ .g) :
    (neighbours cfa w h .g x y).Perm (beside w x ×ˢ [y] ++ [x] ×ˢ beside h y) := by
  obtain ⟨hrow, hcolumn, hcorner, _⟩ := colour_around_not_green hsite
  simpa [sitesBeside, hrow, hcolumn, hcorner] using neighbours_perm hx hy cfa .g

/-- At a red or blue site, the neighbours of the other of the two are those at its corners. -/
theorem neighbours_corner_perm (hsite : colour cfa x y ≠ .g) :
    (neighbours cfa w h (colour cfa (x + 1) (y + 1)) x y).Perm (beside w x ×ˢ beside h y) := by
  obtain ⟨hrow, hcolumn, hcorner, _⟩ := colour_around_not_green hsite
  simpa [sitesBeside, hrow, hcolumn, hcorner.symm] using neighbours_perm hx hy cfa (colour cfa (x + 1) (y + 1))

end

/-- Settles O49: one or two neighbours along a row or a column, their sum for green around a red or blue site, their product
at its corners. -/
theorem neighbourCount : Obligations.NeighbourCount := by
  intro cfa W H c x y hW hH hx hy hc
  have hrow := length_beside hW hx
  have hcolumn := length_beside hH hy
  rcases missing_colour hc with ⟨hsite, rfl | rfl⟩ | ⟨hsite, rfl | rfl⟩
  · rw [(neighbours_row_perm hx hy hsite).length_eq, List.length_product, List.length_singleton, if_pos hsite]
    omega
  · rw [(neighbours_column_perm hx hy hsite).length_eq, List.length_product, List.length_singleton, if_pos hsite]
    omega
  · rw [(neighbours_green_perm hx hy hsite).length_eq, List.length_append, List.length_product, List.length_product,
      List.length_singleton, List.length_singleton, if_neg hsite]
    omega
  · rw [(neighbours_corner_perm hx hy hsite).length_eq, List.length_product, if_neg hsite]
    rcases hrow with ⟨_, hrow⟩ | ⟨_, hrow⟩ <;> rw [hrow] <;> omega

end Sys2Proof.Machine
end

section
/-! PROOFS. DEBAYER (42_debayer.md R122 to R130): the rounded mean, the channels of a site, the checks in order, and the
pixels of a command that succeeds. -/

namespace Sys2Proof.Machine

/-! ### The rounded mean (R126) -/

theorem roundedMean_eq_floor (total : Nat) {n : Nat} (hn : 0 < n) :
    (roundedMean total n : ℤ) = ⌊(total : ℚ) / n + 1 / 2⌋ := by
  have hsum : (total : ℚ) / n + 1 / 2 = (2 * total + n : ℕ) / (2 * n : ℕ) := by
    push_cast
    field_simp
  rw [hsum, Rat.floor_natCast_div_natCast, roundedMean, Int.natCast_ediv]

theorem third_ne_half (total q : Nat) : (total : ℚ) / 3 ≠ q + 1 / 2 := by
  intro h
  have hdouble : ((2 * total : ℕ) : ℚ) = (6 * q + 3 : ℕ) := by
    push_cast
    linarith
  have hnat : 2 * total = 6 * q + 3 := Nat.cast_injective hdouble
  omega

theorem le_roundedMean {vs : List Nat} {lo : Nat} (hvs : vs ≠ []) (h : ∀ v ∈ vs, lo ≤ v) :
    lo ≤ roundedMean vs.sum vs.length := by
  have hn := List.length_pos_iff.mpr hvs
  have hsum : vs.length * lo ≤ vs.sum := List.card_nsmul_le_sum vs lo h
  rw [roundedMean, Nat.le_div_iff_mul_le (by omega)]
  calc lo * (2 * vs.length) = 2 * (vs.length * lo) := by ring
    _ ≤ 2 * vs.sum + vs.length := by omega

theorem roundedMean_le {vs : List Nat} {hi : Nat} (h : ∀ v ∈ vs, v ≤ hi) :
    roundedMean vs.sum vs.length ≤ hi := by
  have hsum : vs.sum ≤ vs.length * hi := List.sum_le_card_nsmul vs hi h
  rcases Nat.eq_zero_or_pos vs.length with hn | hn
  · simp [roundedMean, hn]
  · rw [roundedMean, Nat.div_le_iff_le_mul_add_pred (by omega)]
    calc 2 * vs.sum + vs.length ≤ 2 * (vs.length * hi) + (2 * vs.length - 1) := by omega
      _ = 2 * vs.length * hi + (2 * vs.length - 1) := by ring

/-- Settles O50: the three statements of R126, each a lemma of `roundedMean` or of thirds. -/
theorem meanRounding : Obligations.MeanRounding :=
  ⟨fun total _ hn => roundedMean_eq_floor total hn, third_ne_half, fun _ _ _ hvs h =>
    ⟨le_roundedMean hvs fun v hv => (h v hv).1, roundedMean_le fun v hv => (h v hv).2⟩⟩

/-! ### The channels of a site (R125, R130) -/

/-- A channel as a natural: no mean of cells passes 16 bits (R126). -/
theorem toNat_channel (m : Memory) (src : Nat) (cfa : CfaPattern) (w h : Nat) (c : Colour) (x y : Nat) :
    (channel m src cfa w h c x y).toNat =
      if colour cfa x y = c then (rawCell m src w x y).toNat
      else roundedMean ((neighbours cfa w h c x y).map fun p => (rawCell m src w p.1 p.2).toNat).sum
        (neighbours cfa w h c x y).length := by
  unfold channel
  split
  · rfl
  · have hle := roundedMean_le (hi := 65535)
      (vs := (neighbours cfa w h c x y).map fun p => (rawCell m src w p.1 p.2).toNat)
      (List.forall_mem_map.mpr fun p _ => by omega)
    rw [List.length_map] at hle
    rw [BitVec.toNat_ofNat, Nat.mod_eq_of_lt (by omega)]

/-- A channel that the site does not carry, from its neighbours in any order. -/
theorem toNat_channel_of_perm {cfa : CfaPattern} {w h : Nat} {c : Colour} {x y : Nat} {ps : List (Nat × Nat)}
    (hc : colour cfa x y ≠ c) (hp : (neighbours cfa w h c x y).Perm ps) (m : Memory) (src : Nat) :
    (channel m src cfa w h c x y).toNat =
      roundedMean (ps.map fun p => (rawCell m src w p.1 p.2).toNat).sum ps.length := by
  rw [toNat_channel, if_neg hc, (hp.map _).sum_eq, hp.length_eq]

theorem roundedMean_two (a b : Nat) : roundedMean [a, b].sum 2 = (2 * (a + b) + 2) / 4 := rfl

theorem roundedMean_four (a b c d : Nat) : roundedMean [a, b, c, d].sum 4 = (2 * (a + b + c + d) + 4) / 8 := by
  simp [roundedMean, Nat.add_assoc]

/-- Settles O51: inside the grid both places next to a coordinate count, so a mean is of two or of four cells. -/
theorem interiorIsBilinear : Obligations.InteriorIsBilinear := by
  intro m src cfa W H x y raw hraw hW hH
  have hx : x + 1 < W := by omega
  have hy : y + 1 < H := by omega
  have hside : beside W (x + 1) = [x, x + 2] := beside_of_interior hW
  have hside' : beside H (y + 1) = [y, y + 2] := beside_of_interior hH
  simp only [hraw]
  refine ⟨fun hsite => ?_, fun c hc => ?_, fun hsite => ⟨?_, ?_⟩⟩
  · have hp := neighbours_green_perm hx hy hsite
    rw [hside, hside'] at hp
    rw [toNat_channel_of_perm hsite hp]
    refine (roundedMean_four _ _ _ _).trans ?_
    dsimp only
    omega
  · obtain ⟨hsite, hne, hcorner⟩ : colour cfa (x + 1) (y + 1) ≠ .g ∧ colour cfa (x + 1) (y + 1) ≠ c ∧ c ≠ .g := by
      rcases hc with ⟨rfl, h⟩ | ⟨rfl, h⟩ <;> simp [h]
    obtain rfl : c = colour cfa (x + 2) (y + 2) := by simpa [hsite, hcorner] using missing_colour hne
    have hp := neighbours_corner_perm hx hy hsite
    rw [hside, hside'] at hp
    rw [toNat_channel_of_perm hne hp]
    refine (roundedMean_four _ _ _ _).trans ?_
    dsimp only
    omega
  · obtain ⟨hrow, _⟩ := colour_around_green hsite
    have hp := neighbours_row_perm hx hy hsite
    rw [hside] at hp
    rw [colour_of_parity cfa (show x % 2 = (x + 2) % 2 by omega) rfl,
      toNat_channel_of_perm (hsite.trans_ne hrow.symm) hp]
    exact roundedMean_two _ _
  · obtain ⟨_, hcolumn, _⟩ := colour_around_green hsite
    have hp := neighbours_column_perm hx hy hsite
    rw [hside'] at hp
    rw [colour_of_parity cfa rfl (show y % 2 = (y + 2) % 2 by omega),
      toNat_channel_of_perm (hsite.trans_ne hcolumn.symm) hp]
    exact roundedMean_two _ _

/-! ### The checks in order (R128, R142, R147) -/

theorem debayerCheck_of_small {l : Latched} (h : l.w.toNat < 2 ∨ l.h.toNat < 2) : debayerCheck l = some .geometry :=
  if_pos (by simpa using h)

theorem debayerCheck_of_grid {l : Latched} (hw : 2 ≤ l.w.toNat) (hh : 2 ≤ l.h.toNat) :
    debayerCheck l = regionError (debayerRegions l) :=
  if_neg (by simpa using ⟨hw, hh⟩)

/-- Settles O46: each clause is the check that fails first. -/
theorem debayerErrors : Obligations.DebayerErrors := by
  rintro s l cfa W H rfl rfl rfl
  refine ⟨fun hsmall => ?_, fun hW hH => ⟨fun hodd => ?_, fun hsrc hdst => ⟨fun htop => ?_, fun hs hd hlt hgt => ?_⟩⟩⟩
  · exact exec_fails (i := .debayer cfa) (debayerCheck_of_small hsmall)
  · have halign := regionError_of_misaligned (r := debayerRegions s.blk.latched)
      (hodd.imp (fun h => ⟨rfl, h⟩) fun h => ⟨rfl, h⟩)
    exact exec_fails (i := .debayer cfa) ((debayerCheck_of_grid hW hH).trans halign)
  · have hrange := regionError_of_past_top (r := debayerRegions s.blk.latched) (fun _ => hsrc) (fun _ => hdst) htop
    exact exec_fails (i := .debayer cfa) ((debayerCheck_of_grid hW hH).trans hrange)
  · have hsites : 0 < s.blk.latched.w.toNat * s.blk.latched.h.toNat := Nat.mul_pos (by omega) (by omega)
    have hsrcSize : 0 < (debayerRegions s.blk.latched).src.size := by simp only [debayerRegions, Nat.mul_assoc]; omega
    have hdstSize : 0 < (debayerRegions s.blk.latched).dst.size := by simp only [debayerRegions, Nat.mul_assoc]; omega
    have hoverlap := regionError_of_overlap (r := debayerRegions s.blk.latched) (fun _ => hsrc) (fun _ => hdst) hs hd
      ((Region.overlaps_iff _ _).mpr ⟨hsrcSize, hdstSize, hlt, hgt⟩)
    exact exec_fails (i := .debayer cfa) ((debayerCheck_of_grid hW hH).trans hoverlap)

/-! ### Success (R122, R123) -/

theorem site_lt {w h x y : Nat} (hx : x < w) (hy : y < h) : y * w + x < w * h := by
  have hrows : (y + 1) * w ≤ h * w := Nat.mul_le_mul_right w hy
  rw [Nat.add_mul, Nat.mul_comm h w] at hrows
  omega

/-- The pixel of site `(x, y)` after DEBAYER is its three channels (R123). -/
theorem debayerResult_pixel (m : Memory) (l : Latched) (c : CfaPattern) {x y : Nat} (hx : x < l.w.toNat)
    (hy : y < l.h.toNat) :
    let q := l.dst.toNat + 6 * (y * l.w.toNat + x)
    let ch := fun colour => channel m l.src.toNat c l.w.toNat l.h.toNat colour x y
    Memory.readCell (debayerResult m l c) q = ch .r ∧ Memory.readCell (debayerResult m l c) (q + 2) = ch .g ∧
      Memory.readCell (debayerResult m l c) (q + 4) = ch .b := by
  have hcolumn : (y * l.w.toNat + x) % l.w.toNat = x := Nat.mul_add_mod_of_lt hx
  have hrow : (y * l.w.toNat + x) / l.w.toNat = y := by
    rw [Nat.mul_comm, Nat.mul_add_div (by omega), Nat.div_eq_of_lt hx, Nat.add_zero]
  have hcells := debayerResult_cells m l c (y * l.w.toNat + x) (site_lt hx hy)
  rwa [hcolumn, hrow] at hcells

/-- Settles O45: `exec_completes`, with the channels of `debayerResult_pixel` as naturals. -/
theorem debayerCompletes : Obligations.DebayerCompletes := by
  rintro s l cfa W H rfl rfl rfl hW hH hsrc hdst hsrcTop hdstTop hapart hdev hadm
  have hcheck : debayerCheck s.blk.latched = none :=
    (debayerCheck_none_iff _).mpr
      ⟨⟨hW, hH⟩, (regionError_none_iff _).mpr ⟨fun _ => hsrc, fun _ => hdst, hsrcTop, hdstTop, hapart⟩⟩
  obtain ⟨t, hexec, hok, hsame, haround, hdraws, hmem⟩ :=
    exec_completes (i := .debayer cfa) nofun hcheck hdev hadm rfl
  refine ⟨t, hexec, hok, hsame, haround, hdraws, fun raw val hraw hval x y hx hy => ?_, fun a ha => ?_⟩
  · obtain ⟨hr, hg, hb⟩ := debayerResult_pixel s.mem s.blk.latched cfa hx hy
    have hchannel (c : Colour) : (channel s.mem s.blk.latched.src.toNat cfa s.blk.latched.w.toNat s.blk.latched.h.toNat
        c x y).toNat = val c x y := by
      rw [toNat_channel, hval]
      simp only [hraw]
      rfl
    rw [hmem, commandResult, hr, hg, hb]
    exact ⟨hchannel .r, hchannel .g, hchannel .b⟩
  · rw [hmem]
    exact commandResult_agreeOutside s (.debayer cfa) a ((Region.has_eq_false _ _).mpr ha)

end Sys2Proof.Machine
end

section
/-! PROOFS. The execution errors (60_exceptions.md R146 to R148): what a command leaves that ends with SAMPLE_RANGE or
BUS_ERROR, and which of the two it is. -/

namespace Sys2Proof.Machine

/-- What the completion step of a command with an execution error leaves: its code, free values in the admitted bytes of its
destination, and everything else as it was (R90, R148). -/
theorem exec_fails_with_free_destination {i : Instr} {s : State} {e : ErrCode} (hcheck : instrCheck s.blk.latched i = none)
    (hdev : s.onDevice (instrRegions s.blk.latched i) = false)
    (herr : s.accessError (instrRegions s.blk.latched i) (commandSampleBad s i) = some e) :
    ∃ t, exec i s = .next t ∧ t.blk.showsError e.bits ∧ s.blk.sameButOutcome t.blk ∧ s.sameAround t ∧
      ∀ a, Memory.read t.mem a =
        if (instrRegions s.blk.latched i).dst.has a && s.admits .write a then
          Config.freeByte (s.draws + (a - (instrRegions s.blk.latched i).dst.start))
        else Memory.read s.mem a :=
  ⟨_, exec_of_accessError hcheck hdev herr, Block.completeError_shows _ e, Block.completeError_same _ _,
    ⟨rfl, rfl, rfl, rfl⟩, fun a => Memory.read_scramble _ _ _ _ a⟩

section
variable {s : State} {r : Regions} (hadm : s.admitsRegions r = false)
include hadm

/-- Where a byte is not admitted and no sample is too large, BUS_ERROR alone applies (R146). -/
theorem accessError_busError : s.accessError r false = some .busError := by
  simp only [State.accessError, hadm]

/-- Where a byte is not admitted and a sample is too large, the draw chooses the error (R147). -/
theorem accessError_draw :
    s.accessError r true = some (if Config.freeChoice s.draws then .sampleRange else .busError) := by
  simp only [State.accessError, hadm]

end

/-- Settles O36: with no sample too large, the byte that is not admitted makes the execution error BUS_ERROR. -/
theorem busError : Obligations.BusError := by
  intro s i _ hcheck hsmall hdev hadm
  have hbad : commandSampleBad s i = false := by
    rw [← Bool.not_eq_true, commandSampleBad_iff]
    rintro ⟨hpack, hlarge⟩
    exact Bool.false_ne_true ((hsmall hpack).symm.trans hlarge)
  have herr := (congrArg (s.accessError (instrRegions s.blk.latched i)) hbad).trans (accessError_busError hadm)
  exact exec_fails_with_free_destination hcheck hdev herr

/-- Settles O35: the admitted cell above 4095 makes SAMPLE_RANGE apply beside BUS_ERROR, so the error is a draw. -/
theorem pack12ErrorDraw : Obligations.Pack12ErrorDraw := by
  rintro s l i rfl hcheck hdev hadm hi hlow hhigh hlarge
  have hbad : commandSampleBad s .pack12 = true := (sampleTooLarge_iff s _).mpr ⟨i, hi, ⟨hlow, hhigh⟩, hlarge⟩
  have herr := (congrArg (s.accessError (packRegions s.blk.latched)) hbad).trans (accessError_draw hadm)
  have hend := exec_fails_with_free_destination (i := .pack12) hcheck hdev herr
  rwa [apply_ite ErrCode.bits] at hend

end Sys2Proof.Machine
end

section
/-! PROOFS. The host's accesses to the window of another block (40_control.md R85 to R88, 60_exceptions.md R159): each is
that block's own, made with the block in focus. -/

namespace Sys2Proof.Machine

section
variable {s : State} {rest : List Event} {k : Nat} {b : Block} (hwf : s.platform.wf = true) (hk : s.others[k]? = some b)
include hwf hk

/-- A host read at a register of block `k + 1` returns it (R63, R85). -/
theorem step_read_other {r : Reg} (ha : s.agenda = .bus (.read (r.address b.port.base) .word) :: rest) :
    step s = .next { s with
      agenda := rest, lastRead := some (.word (b.readReg r)), others := s.others.set k (b.afterRead r) } := by
  rw [step_of_event ha]
  exact hostAccess_read_other (s := s.setAgenda rest) hwf hk r

/-- A host write at a register of block `k + 1` is that block's, in focus (R85, R159). -/
theorem step_write_other {r : Reg} {v : Word}
    (ha : s.agenda = .bus (.write (r.address b.port.base) (.word v)) :: rest) :
    step s = mapNext (fun t => t.swap k) (((s.setAgenda rest).swap k).writeWindow r.offset v) := by
  rw [step_of_event ha]
  exact hostAccess_write_other (s := s.setAgenda rest) hwf hk r v

/-- A write that its block accepts in focus replaces that block in its place, and nothing else. -/
theorem step_write_other_accepted {r : Reg} {v : Word} {c : Block}
    (ha : s.agenda = .bus (.write (r.address b.port.base) (.word v)) :: rest)
    (hwin : ((s.setAgenda rest).swap k).writeWindow r.offset v = .next (((s.setAgenda rest).swap k).setBlk c)) :
    step s = .next { s with agenda := rest, others := s.others.set k c } := by
  rw [step_write_other hwf hk ha, hwin, mapNext, swap_back (s := s.setAgenda rest) hk]
  rfl

end

theorem swap_others_of {s : State} {k : Nat} {b : Block} (h : s.others[k]? = some b) :
    (s.swap k).others = s.others.set k s.blk := by
  rw [swap_of h]

/-- Settles O14: the access is the block's own in focus, where a GO is dropped while it runs, starts its command, or races
with one of the blocks beside it. -/
theorem hostReachesEveryBlock : Obligations.HostReachesEveryBlock := by
  intro s rest k b hwf hk
  have hothers : ((s.setAgenda rest).swap k).others = s.others.set k s.blk := swap_others_of (s := s.setAgenda rest) hk
  obtain rfl : ((s.setAgenda rest).swap k).blk = b := swap_blk_of (s := s.setAgenda rest) hk
  refine ⟨fun r ha => ?_, fun r v hctrl ha => ?_, fun v ha => ⟨fun hv => ?_, fun hv hbusy => ?_,
    fun hv hidle hapart => ?_, fun hv hidle ⟨c, hc, hbusy, hconflict⟩ => ?_⟩⟩
  · rw [← Block.afterRead_eq]
    exact step_read_other hwf hk ha
  · exact step_write_other_accepted hwf hk ha (writeWindow_offset hctrl v)
  · rw [step_write_other hwf hk ha, writeWindow_ctrl_of_clear _ hv, mapNext, swap_swap]
  · rw [← Block.writeReg_ctrl_of_go_busy hv hbusy]
    exact step_write_other_accepted hwf hk ha (writeWindow_of_busy hbusy .ctrl v)
  · refine step_write_other_accepted hwf hk ha (writeWindow_go hv hidle fun c hc _ hbusy => ?_)
    exact hapart c (hothers ▸ hc) hbusy
  · have hrace : (((s.setAgenda rest).swap k).setBlk ((s.setAgenda rest).swap k).blk.start).racesOthers = true :=
      List.any_eq_true.mpr ⟨c, hothers ▸ hc, by simpa [hbusy] using hconflict⟩
    rw [step_write_other hwf hk ha, writeWindow_racing_go hv hidle hrace, mapNext]

end Sys2Proof.Machine
end
